-- ==== Sys2Proof/Word.lean ====
section
/-! DEFINITION. The two word types of 6502_core (spec/00_scope.md R5, R8): the 8-bit memory cell and register, and the
16-bit address. Both are unsigned and their arithmetic wraps (10_state.md R28), which is what `BitVec` gives. -/

namespace Sys2Proof

/-- A memory cell, and each of `A`, `X`, `Y`, `SP`, `P`: 8 bits, unsigned (R5 `DATA_WIDTH`). -/
abbrev Byte := BitVec 8

/-- A memory address and `PC`: 16 bits, unsigned (R5 `ADDR_WIDTH`, `PC_WIDTH`). -/
abbrev Addr := BitVec 16

end Sys2Proof
end

