-- ==== Sys2Proof/Config.lean ====
section
/-! DEFINITION. What an implementation of 6502_core fixes (spec/00_scope.md R5, R6). There is no free value: no
instruction of the spec leaves a value open (93_implementation_defined.md, end of Part 1). -/

namespace Sys2Proof

/-- The parameter `RTS_VARIANT` (R6, 92_eei_decisions.md D1). -/
inductive RtsVariant where
  /-- The normative `RTS`, which reads one stack byte twice and leaves `SP` alone (42_subroutine.md R111). -/
  | faithful
  /-- The labelled variant that inverts the push (42_subroutine.md R112). -/
  | corrected
  deriving DecidableEq, Repr

/-- The default and normative `RTS_VARIANT` (R6). -/
def Config.rtsVariantDefault : RtsVariant := .faithful

/-- `RESET_VECTOR_DEFAULT`: the address the first opcode is fetched FROM after `reset()` (R5, 90_conflicts.md C1). -/
def Config.resetVectorDefault : Addr := 0xFFFC

/-- `SP_RESET`, the top of the stack page (R5). -/
def Config.spReset : Byte := 0xFF

/-- `MEM_SIZE`: every address below it exists, and no other (R5, 10_state.md R19). -/
def Config.memSize : Nat := 65536

end Sys2Proof
end

