-- ==== Sys2Proof/Syntax.lean ====
section
/-! DEFINITION. The instructions of 6502_core as syntax: one constructor per row of spec/opcode_table.json, in its order
(30_encoding.md R66). -/

namespace Sys2Proof

/-- One whole instruction with its operand assembled (30_encoding.md R61, R63). -/
inductive Instr where
  /-- `JSR $hhll`, format ABS: `target` is byte 2 : byte 1 (42_subroutine.md R110). -/
  | jsr (target : Addr)
  /-- `RTS`, format IMP (42_subroutine.md R111, R112). -/
  | rts
  /-- `LDA $nn`, format ZP: `z` is the zero-page address (41_load_accumulator.md R102). -/
  | ldaZp (z : Byte)
  /-- `LDA #$nn`, format IMM: `imm` is the data byte (41_load_accumulator.md R101). -/
  | ldaImm (imm : Byte)
  /-- An unknown opcode, format IMP: `op` is any of the 252 unassigned bytes (40_core_loop.md R92). -/
  | unk (op : Byte)
  deriving DecidableEq, Repr

end Sys2Proof
end

