-- ==== Sys2Proof/WellFormed.lean ====
section
/-! DEFINITION. Which terms of `Instr` are instructions of the hardware (30_encoding.md R66, R68): every operand of the
four named instructions is legal at every value, and `unk` carries only an opcode byte that none of the four has. -/

namespace Sys2Proof

/-- The one way a term of `Instr` can be ill-formed. -/
inductive IllFormed where
  /-- `unk` carries one of the four assigned opcode bytes (30_encoding.md R68). -/
  | assignedOpcode (op : Byte)
  deriving DecidableEq, Repr

/-- The four assigned opcode bytes (30_encoding.md R66). -/
def assignedOpcodes : List Byte := [0x20, 0x60, 0xA5, 0xA9]

/-- What is wrong with an instruction, if anything. -/
def Instr.illFormed : Instr → Option IllFormed
  | .jsr _ => none
  | .rts => none
  | .ldaZp _ => none
  | .ldaImm _ => none
  | .unk op => if op ∈ assignedOpcodes then some (.assignedOpcode op) else none

/-- The instruction is one the hardware has. -/
abbrev Instr.WellFormed (i : Instr) : Prop := i.illFormed = none

end Sys2Proof
end

