-- ==== Sys2Proof/Decode.lean ====
section
/-! DEFINITION. Decoding and encoding (spec/30_encoding.md R60 to R69) and the byte-order helpers they share with the
memory operations (20_memory.md R44). -/

namespace Sys2Proof

/-! ### Byte order -/

/-- `hi:lo`, the 16-bit value of two bytes (00_scope.md R8, 20_memory.md R44). -/
def wordOf (hi lo : Byte) : Addr := hi ++ lo

/-- `v[15:8]`. -/
def hiByte (v : Addr) : Byte := v.extractLsb' 8 8

/-- `v[7:0]`. -/
def loByte (v : Addr) : Byte := v.extractLsb' 0 8

/-- `zext_16(v)` (00_scope.md R8). -/
def zext16 (v : Byte) : Addr := v.setWidth 16

/-! ### The opcode table -/

/-- One row of spec/opcode_table.json: `mask` and `pattern` are applied to byte 0 only (30_encoding.md R69). -/
structure OpRow where
  mnemonic : String
  pattern : Byte
  mask : Byte
  length : Nat
  cycles : Nat
  deriving DecidableEq, Repr

/-- The table, the catch-all row last as its `priority` says (30_encoding.md R66, R69). -/
def opcodeTable : List OpRow :=
  [ ⟨"JSR", 0x20, 0xFF, 3, 4⟩,
    ⟨"RTS", 0x60, 0xFF, 1, 3⟩,
    ⟨"LDA_ZP", 0xA5, 0xFF, 2, 3⟩,
    ⟨"LDA_IMM", 0xA9, 0xFF, 2, 2⟩,
    ⟨"UNK", 0x00, 0x00, 1, 1⟩ ]

/-- The row that an opcode byte selects: the first that matches (30_encoding.md R69). -/
def rowOf (op : Byte) : Option OpRow := opcodeTable.find? fun r => op &&& r.mask = r.pattern

/-- The instruction's mnemonic as the table spells it. -/
def Instr.mnemonic : Instr → String
  | .jsr _ => "JSR"
  | .rts => "RTS"
  | .ldaZp _ => "LDA_ZP"
  | .ldaImm _ => "LDA_IMM"
  | .unk _ => "UNK"

/-- How many bytes the instruction has (30_encoding.md R61, R62). -/
def Instr.length : Instr → Nat
  | .jsr _ => 3
  | .rts => 1
  | .ldaZp _ => 2
  | .ldaImm _ => 2
  | .unk _ => 1

/-- The cycle cost the table states (30_encoding.md R66, 40_core_loop.md R88). The meanings do not use it: their cost
follows from the primitives they call. -/
def Instr.cycles : Instr → Nat
  | .jsr _ => 4
  | .rts => 3
  | .ldaZp _ => 3
  | .ldaImm _ => 2
  | .unk _ => 1

/-! ### Decoding -/

/-- The instruction whose opcode byte is `op` and whose next two bytes in the instruction stream are `b1` and `b2`, of
which it takes those its format has (30_encoding.md R61, R63, R66). Total: every opcode byte decodes (R69). -/
def decodeOp (op b1 b2 : Byte) : Instr :=
  if op = 0x20 then .jsr (wordOf b2 b1)
  else if op = 0x60 then .rts
  else if op = 0xA5 then .ldaZp b1
  else if op = 0xA9 then .ldaImm b1
  else .unk op

/-- Why a finite list of bytes does not start with a whole instruction. No opcode byte is refused (30_encoding.md R69). -/
inductive DecodeError where
  /-- There is no byte at all. -/
  | noBytes
  /-- The opcode byte asks for `needed` bytes and the list is shorter. -/
  | truncated (needed : Nat)
  deriving DecidableEq, Repr

/-- Reads one instruction from the front of a list of bytes and returns it with the bytes after it. -/
def decode : List Byte → Except DecodeError (Instr × List Byte)
  | [] => .error .noBytes
  | op :: rest =>
    let i := decodeOp op (rest.getD 0 0) (rest.getD 1 0)
    if i.length ≤ rest.length + 1 then .ok (i, rest.drop (i.length - 1)) else .error (.truncated i.length)

/-! ### Encoding -/

/-- The bytes of an instruction in address order (30_encoding.md R61, R66). -/
def encode : Instr → List Byte
  | .jsr target => [0x20, loByte target, hiByte target]
  | .rts => [0x60]
  | .ldaZp z => [0xA5, z]
  | .ldaImm imm => [0xA9, imm]
  | .unk op => [op]

/-- The longest instruction, in bytes (30_encoding.md R60). -/
def maxLength : Nat := 3

/-- The bytes of an instruction numbered as spec/opcode_table.json numbers them: byte `k` is bits `8k+7` to `8k`, and every
bit from `nbits` up is 0. -/
def tableBytes (nbits w : Nat) : List Byte :=
  (List.range maxLength).map fun k => BitVec.ofNat 8 (w % 2 ^ nbits / 2 ^ (8 * k))

/-- The instruction this decoder reads from the bits `w` of a row of spec/opcode_table.json. -/
def decodeTableWord (nbits w : Nat) : Option Instr :=
  match decode (tableBytes nbits w) with
  | .ok (i, _) => some i
  | .error _ => none

end Sys2Proof
end

