-- ==== Sys2Proof/Machine/State.lean ====
section
/-! DEFINITION. The state of 6502_core as plain data (spec/10_state.md R10 to R27), the reasons a step can stop, and the
state right after the first `reset()` (R25). -/

namespace Sys2Proof.Machine

/-- Memory as (address, byte) pairs in one canonical form: addresses strictly rising and below `Config.memSize`, no entry 0x00.
An address that is not listed reads 0x00, the reset contents the spec gives (10_state.md R19, R25). -/
abbrev Memory := List Host.Cell

/-- Where the core is in the host's call sequence (10_state.md R26, R27; 60_exceptions.md R132; 70_reset_and_hazards.md R148). -/
inductive Phase where
  /-- No reset has happened yet: the whole state is unspecified and nothing but a reset has a meaning (R26). -/
  | beforeReset
  /-- Idle: after a reset or at the end of a run; only the host acts (R132). -/
  | idle
  /-- Running: from the entry to `run` until the budget test fails; only the core acts (R132). -/
  | running
  deriving DecidableEq, Repr

/-- One event of the diagnostic output: the unknown opcode and the address it was fetched from (40_core_loop.md R92, D5). -/
structure DiagEvent where
  op : Byte
  addr : Addr
  deriving DecidableEq, Repr

/-- One event of the record of the core's memory accesses (20_memory.md R43). -/
inductive MemEvent where
  /-- `MemRead(a, 1)` gave `v`. -/
  | read (a : Addr) (v : Byte)
  /-- `MemWrite(a, 1, v)`. -/
  | write (a : Addr) (v : Byte)
  deriving DecidableEq, Repr

/-- The whole state: the eight items of 10_state.md R10, then the call-sequence phase, the machine's parameter and the two
output streams, which no instruction reads (`rtsVariant` apart, which only `RTS` reads). -/
structure State where
  /-- `A`, the accumulator (R11). -/
  a : Byte
  /-- `X`, an index register that no instruction touches (R12). -/
  x : Byte
  /-- `Y`, an index register that no instruction touches (R12). -/
  y : Byte
  /-- `SP`, an offset into the stack page; it points at the next free stack byte (R13). -/
  sp : Byte
  /-- `PC` (R14). -/
  pc : Addr
  /-- `P`, the status register: C Z I D B U V N at bits 0 to 7 (R15, R16). -/
  p : Byte
  /-- `CYC`, the signed cycle counter, unbounded (R18, D2). -/
  cyc : Int
  /-- `M`, the memory (R19). -/
  mem : Memory
  /-- The call-sequence phase (R27, R132, R148). -/
  phase : Phase
  /-- The parameter `RTS_VARIANT` (00_scope.md R6): not the spec's state; nothing ever writes it. -/
  rtsVariant : RtsVariant
  /-- The diagnostic output so far, oldest event first (40_core_loop.md R92): not the spec's state. -/
  diag : List DiagEvent
  /-- The record of the core's memory accesses so far, oldest first (20_memory.md R43): not the spec's state. -/
  trace : List MemEvent
  deriving DecidableEq, Repr

/-- The reasons a step stops with a fault: none. The machine raises no exception and no operation of it can fail
(60_exceptions.md R120), so the type is empty. -/
inductive Fault where
  deriving DecidableEq, Repr

/-- The reasons a request has no meaning. No instruction that has a meaning raises one. -/
inductive Refusal where
  /-- Raised by `exec` for an instruction the model has no meaning for; no arm of this model uses it. Safe. -/
  | notModelled (mnemonic : String)
  /-- Raised by `step` and by every host move but reset while no reset has happened yet: the state is unspecified and such a
  use has no meaning (10_state.md R26, 70_reset_and_hazards.md R148). Safe: the machine stops where the spec says nothing. -/
  | beforeFirstReset
  /-- Raised by every host move while the core is running: the host has no move during a run (20_memory.md R56,
  70_reset_and_hazards.md R151). Safe: it rests on the host's duty, and no claim about a run goes through it. -/
  | hostMoveWhileRunning
  deriving DecidableEq, Repr

/-- The machine right after the first `reset()`: idle, with the values of 10_state.md R25. `cyc` is not written by reset and
its 0 here is a DESIGN CHOICE (log entry 1, unsafe); the two empty output streams are a DESIGN CHOICE (log entries 7, 8). -/
def State.reset : State where
  a := 0x00
  x := 0x00
  y := 0x00
  sp := Config.spReset
  pc := Config.resetVectorDefault
  p := 0x00
  cyc := 0
  mem := []
  phase := .idle
  rtsVariant := Config.rtsVariantDefault
  diag := []
  trace := []

end Sys2Proof.Machine
end

