-- ==== Sys2Proof/Machine/Ops.lean ====
section
/-! DEFINITION. The named operations over memory and registers: the memory interface (spec/20_memory.md R40, R43, R57), the
core primitives (40_core_loop.md R80 to R86) and the diagnostic event (R92). None of them can fail.

Taking an exception, and returning from one, have no operation here: the machine has no exception, interrupt or trap, saves
nothing and enters no handler (60_exceptions.md R120 to R124). The one abnormal event is `emitDiag`, after which execution
goes on in line. -/

namespace Sys2Proof.Machine

/-! ### Memory -/

/-- The byte at an address; an address that is not listed holds 0x00 (10_state.md R19, R25). -/
def Memory.readNat (m : Memory) (a : Nat) : Byte :=
  match m with
  | [] => 0x00
  | c :: rest => if c.1 = a then c.2 else Memory.readNat rest a

/-- `m` without any entry for `a`: the byte there is 0x00. -/
def Memory.remove (m : Memory) (a : Nat) : Memory := m.filter fun c => c.1 ≠ a

/-- Puts an entry before the first entry with a larger address. -/
def Memory.place (m : Memory) (a : Nat) (v : Byte) : Memory :=
  match m with
  | [] => [(a, v)]
  | c :: rest => if a < c.1 then (a, v) :: c :: rest else c :: Memory.place rest a v

/-- Writes one byte and keeps the canonical form: writing 0x00, what an unlisted address reads as, removes the entry. -/
def Memory.writeNat (m : Memory) (a : Nat) (v : Byte) : Memory :=
  if v = 0x00 then m.remove a else (m.remove a).place a v

/-- `M[a]` (20_memory.md R40). -/
def Memory.read (m : Memory) (a : Addr) : Byte := m.readNat a.toNat

/-- `M[a] <- v` (20_memory.md R40). -/
def Memory.write (m : Memory) (a : Addr) (v : Byte) : Memory := m.writeNat a.toNat v

/-- `init()`: every byte becomes 0x00 (20_memory.md R57). -/
def Memory.init (_ : Memory) : Memory := []

/-- Writes bytes at consecutive addresses from `a` up, wrapping after 0xFFFF: a program image (70_reset_and_hazards.md R144). -/
def Memory.load (m : Memory) (a : Addr) : List Byte → Memory
  | [] => m
  | b :: bs => Memory.load (m.write a b) (a + 1) bs

/-- The addresses rise strictly. -/
def Memory.rising : Memory → Bool
  | [] => true
  | [_] => true
  | c :: d :: rest => decide (c.1 < d.1) && Memory.rising (d :: rest)

/-- The canonical form of memory: addresses strictly rising and inside the address space, no entry equal to what an unlisted
address reads as. -/
def Memory.wf (m : Memory) : Bool := m.rising && m.all fun c => decide (c.1 < Config.memSize) && decide (c.2 ≠ 0x00)

/-- The byte of memory at an address, without an access by the core. -/
def byteAt (a : Addr) (s : State) : Byte := s.mem.read a

/-- `MemRead(a, 1)` (20_memory.md R40): gives `M[a]` and records the read (R43). -/
def memRead (a : Addr) (s : State) : Byte × State :=
  (byteAt a s, { s with trace := s.trace ++ [.read a (byteAt a s)] })

/-- `MemWrite(a, 1, v)` (20_memory.md R40): sets `M[a]` and records the write (R43). -/
def memWrite (a : Addr) (v : Byte) (s : State) : State :=
  { s with mem := s.mem.write a v, trace := s.trace ++ [.write a v] }

/-! ### Registers -/

/-- `A <- v`. -/
def setA (v : Byte) (s : State) : State := { s with a := v }

/-- `SP <- v`. -/
def setSp (v : Byte) (s : State) : State := { s with sp := v }

/-- `PC <- v`. -/
def setPc (v : Addr) (s : State) : State := { s with pc := v }

/-- `P <- v`. -/
def setP (v : Byte) (s : State) : State := { s with p := v }

/-- `Tick(n)`: `CYC <- CYC - n`, no clamp, no wrap (40_core_loop.md R86, R87). -/
def tick (n : Nat) (s : State) : State := { s with cyc := s.cyc - n }

/-! ### Fetching -/

/-- `FetchByte()` (40_core_loop.md R80). -/
def fetchByte (s : State) : Byte × State :=
  let r := memRead s.pc s
  (r.1, tick 1 (setPc (s.pc + 1) r.2))

/-- `FetchWord()` (40_core_loop.md R81): low byte first; the second byte's address wraps modulo 2^16. -/
def fetchWord (s : State) : Addr × State :=
  let lo := memRead s.pc s
  let hi := memRead (s.pc + 1) lo.2
  (wordOf hi.1 lo.1, tick 2 (setPc (s.pc + 2) hi.2))

/-! ### The stack -/

/-- `StackAddr()`: `0x0100 | zext_16(SP)` (40_core_loop.md R83). -/
def stackAddr (sp : Byte) : Addr := 0x0100 ||| zext16 sp

/-- Writes one byte at the stack address, then decrements `SP` modulo 2^8: one half of `PushWord` (40_core_loop.md R84). -/
def pushByte (v : Byte) (s : State) : State :=
  let s := memWrite (stackAddr s.sp) v s
  setSp (s.sp - 1) s

/-- `PushWord(v)`: high byte, then low byte; two writes, no cycle cost (40_core_loop.md R84). -/
def pushWord (v : Addr) (s : State) : State := pushByte (loByte v) (pushByte (hiByte v) s)

/-- `StackRead()`: one counted read of the current stack byte; `SP` unchanged (40_core_loop.md R85). -/
def stackRead (s : State) : Byte × State :=
  let r := memRead (stackAddr s.sp) s
  (r.1, tick 1 r.2)

/-! ### The diagnostic output -/

/-- `Diag(op, addr)`: appends one event to the diagnostic output and changes nothing else (40_core_loop.md R92). -/
def emitDiag (op : Byte) (addr : Addr) (s : State) : State :=
  { s with diag := s.diag ++ [⟨op, addr⟩] }

end Sys2Proof.Machine
end

