-- ==== Sys2Proof/Machine/Flags.lean ====
section
/-! DEFINITION. The status register's bits and its five operations (spec/10_state.md R16, R20 to R24), and the flag-update
policy of the loads (41_load_accumulator.md R100). Only `setFlagIf` is used by the instructions; the other four belong to the
block's contract (92_eei_decisions.md D23). -/

namespace Sys2Proof.Machine

/-- The eight bit positions of `P`: seven named flags and the unused bit (10_state.md R16, 90_conflicts.md C4). -/
inductive Flag where
  | c | z | i | d | b | u | v | n
  deriving DecidableEq, Repr

/-- The flag's mask (10_state.md R16, 95_test_vectors.md E11). -/
def Flag.mask : Flag → Byte
  | .c => 0x01
  | .z => 0x02
  | .i => 0x04
  | .d => 0x08
  | .b => 0x10
  | .u => 0x20
  | .v => 0x40
  | .n => 0x80

/-- `Set(m)`: `P <- P | m` (R20). -/
def setFlag (f : Flag) (s : State) : State := setP (s.p ||| f.mask) s

/-- `SetIf(c, m)`: sets the bit when `c` holds and otherwise leaves `P` alone; it never clears (R21). -/
def setFlagIf (c : Bool) (f : Flag) (s : State) : State := if c then setP (s.p ||| f.mask) s else s

/-- `Clear(m)`: `P <- P & ~m` (R22). -/
def clearFlag (f : Flag) (s : State) : State := setP (s.p &&& ~~~f.mask) s

/-- `Toggle(m)`: `P <- P ^ m` (R23). -/
def toggleFlag (f : Flag) (s : State) : State := setP (s.p ^^^ f.mask) s

/-- `Has(m)`: whether the bit is set; `P` is unchanged (R24). -/
def hasFlag (f : Flag) (s : State) : Bool := s.p &&& f.mask ≠ 0

/-- `UpdateZN(v)`: the policy of the loads; it only ever sets (41_load_accumulator.md R100). -/
def updateZN (v : Byte) (s : State) : State :=
  setFlagIf (v.getLsbD 7) .n (setFlagIf (v == 0x00) .z s)

end Sys2Proof.Machine
end

