-- ==== Sys2Proof/Machine/Operands.lean ====
section
/-! DEFINITION. The operand forms (spec/30_encoding.md R61, R63). The decoder has already assembled an instruction's operand;
what is left for a meaning is to consume the instruction's bytes as its pseudocode does, access by access, and to reach the
operand in memory where the form has one. -/

namespace Sys2Proof.Machine

/-- `op <- FetchByte()`, the first line of every instruction (40_core_loop.md R91). -/
def consumeOpcode (s : State) : State := (fetchByte s).2

/-- The one operand byte of formats IMM and ZP, consumed by `FetchByte` (30_encoding.md R61). -/
def consumeOperandByte (s : State) : State := (fetchByte s).2

/-- The two operand bytes of format ABS, consumed by `FetchWord` (30_encoding.md R61). -/
def consumeOperandWord (s : State) : State := (fetchWord s).2

/-- `ReadZP(z)`: one counted read in the zero page (40_core_loop.md R82). -/
def readZp (z : Byte) (s : State) : Byte × State :=
  let r := memRead (zext16 z) s
  (r.1, tick 1 r.2)

/-- The stack operand of `RTS`, `faithful`: the byte at the current `SP`, read twice; `SP` unchanged (42_subroutine.md R111). -/
def popWordFaithful (s : State) : Addr × State :=
  let lo := stackRead s
  let hi := stackRead lo.2
  (wordOf hi.1 lo.1, hi.2)

/-- The stack operand of `RTS`, `corrected`: the inverse of `PushWord` (42_subroutine.md R112). -/
def popWordCorrected (s : State) : Addr × State :=
  let lo := stackRead (setSp (s.sp + 1) s)
  let hi := stackRead (setSp (lo.2.sp + 1) lo.2)
  (wordOf hi.1 lo.1, hi.2)

/-- The stack operand of `RTS` as the machine's parameter `RTS_VARIANT` says (00_scope.md R6). -/
def popWord (s : State) : Addr × State :=
  match s.rtsVariant with
  | .faithful => popWordFaithful s
  | .corrected => popWordCorrected s

end Sys2Proof.Machine
end

