-- ==== Sys2Proof/Machine/LoadAccumulator.lean ====
section
/-! DEFINITION. The load-accumulator instructions (spec/41_load_accumulator.md R100 to R102): the machine's only loads. -/

namespace Sys2Proof.Machine

/-- `A <- v; UpdateZN(A)`, what every A-loading instruction ends with (R100). -/
def loadA (v : Byte) (s : State) : State := updateZN v (setA v s)

/-- `LDA` zero-page (R102): one counted read in the zero page, after both instruction bytes are consumed. -/
def execLdaZp (z : Byte) (s : State) : Host.Outcome State Fault Refusal :=
  let r := readZp z (consumeOperandByte (consumeOpcode s))
  .next (loadA r.1 r.2)

/-- `LDA` immediate (R101). -/
def execLdaImm (imm : Byte) (s : State) : Host.Outcome State Fault Refusal :=
  .next (loadA imm (consumeOperandByte (consumeOpcode s)))

end Sys2Proof.Machine
end

