-- ==== Sys2Proof/Machine/Subroutine.lean ====
section
/-! DEFINITION. The subroutine instructions `JSR` and `RTS` (spec/42_subroutine.md R110 to R112): the machine's only control
transfers. -/

namespace Sys2Proof.Machine

/-- `JSR` (R110): pushes the address of its own last byte, `PC - 1` after the operand fetch (92_eei_decisions.md D18), and
goes to `target`. The two writes cost no cycles; the "+ 1 extra" is the `tick`. -/
def execJsr (target : Addr) (s : State) : Host.Outcome State Fault Refusal :=
  let s := consumeOperandWord (consumeOpcode s)
  let s := pushWord (s.pc - 1) s
  .next (tick 1 (setPc target s))

/-- `RTS` (R111 faithful, normative; R112 corrected): goes to the popped word plus 1. -/
def execRts (s : State) : Host.Outcome State Fault Refusal :=
  let r := popWord (consumeOpcode s)
  .next (setPc (r.1 + 1) r.2)

end Sys2Proof.Machine
end

