-- ==== Sys2Proof/Machine/Unknown.lean ====
section
/-! DEFINITION. The unknown opcode (spec/40_core_loop.md R92, 30_encoding.md R68): a one-byte, one-cycle instruction that is
reported and changes nothing but `PC` and `CYC`. -/

namespace Sys2Proof.Machine

/-- `UNK` (R92): the event's address is `PC - 1` after the opcode fetch, the address the byte was fetched from (D5). -/
def execUnk (op : Byte) (s : State) : Host.Outcome State Fault Refusal :=
  let s := consumeOpcode s
  .next (emitDiag op (s.pc - 1) s)

end Sys2Proof.Machine
end

