-- ==== Sys2Proof/Machine/Dispatch.lean ====
section
/-! DEFINITION. The dispatcher (spec/30_encoding.md R60, R66; 40_core_loop.md R91): one arm per instruction. Each meaning is a
WHOLE step, opcode fetch included, as the rules of 41 and 42 write it. -/

namespace Sys2Proof.Machine

def exec (i : Instr) (s : State) : Host.Outcome State Fault Refusal :=
  match i with
  | .jsr target => Sys2Proof.Machine.execJsr target s
  | .rts => Sys2Proof.Machine.execRts s
  | .ldaZp z => Sys2Proof.Machine.execLdaZp z s
  | .ldaImm imm => Sys2Proof.Machine.execLdaImm imm s
  | .unk op => Sys2Proof.Machine.execUnk op s

end Sys2Proof.Machine
end

