-- ==== Sys2Proof/Machine/RunLoop.lean ====
section
/-! DEFINITION. The run loop (spec/40_core_loop.md R90 to R97): reading the instruction at `PC`, one turn of the loop, and the
loop itself. -/

namespace Sys2Proof.Machine

/-- The three bytes of the instruction stream from `PC` up, the addresses modulo 2^16 (30_encoding.md R60). The meanings
consume the bytes their instruction has; this look at them is no access of the core (log entry 9). -/
def instrBytes (s : State) : List Byte := [byteAt s.pc s, byteAt (s.pc + 1) s, byteAt (s.pc + 2) s]

/-- The instruction at `PC`. Every opcode byte decodes (30_encoding.md R69). -/
def instrAt (s : State) : Instr := decodeOp (byteAt s.pc s) (byteAt (s.pc + 1) s) (byteAt (s.pc + 2) s)

/-- The core is inside a run and its budget test holds: its next turn executes an instruction (40_core_loop.md R90). -/
abbrev State.Executing (s : State) : Prop := s.phase = .running ∧ 0 < s.cyc

/-- One turn of the machine. Running: the budget test, then one whole instruction, or the end of the run (R90, R91, R94). Idle:
the state survives unchanged, since only the host's `run` starts the core (60_exceptions.md R132). Before the first reset:
refused (70_reset_and_hazards.md R148). -/
def turn (s : State) : Host.Outcome State Fault Refusal :=
  match s.phase with
  | .beforeReset => .refused .beforeFirstReset
  | .idle => .next s
  | .running => if 0 < s.cyc then exec (instrAt s) s else .next { s with phase := .idle }

/-- At most `fuel` turns, stopping at a refusal. -/
def loop : Nat → State → Host.Outcome State Fault Refusal
  | 0, s => .next s
  | fuel + 1, s =>
    match turn s with
    | .next t => loop fuel t
    | .fault r => .fault r
    | .refused r => .refused r

/-- The entry to `run(budget)`: `CYC <- budget` and nothing else (R90). -/
def enterRun (budget : Int) (s : State) : State := { s with cyc := budget, phase := .running }

/-- How many instructions the first `fuel` turns execute before the budget test fails. -/
def instrCount : Nat → State → Nat
  | 0, _ => 0
  | fuel + 1, s =>
    if s.Executing then
      match turn s with
      | .next t => instrCount fuel t + 1
      | .fault _ => 0
      | .refused _ => 0
    else 0

end Sys2Proof.Machine
end

