-- ==== Sys2Proof/Machine/HostPort.lean ====
section
/-! DEFINITION. The host's side of the machine, at transaction level (spec/00_scope.md R7; 70_reset_and_hazards.md R140 to R148;
40_core_loop.md R90, R95, R96). The host acts only while the core does not run (20_memory.md R56, R151), and before the first
reset it may only reset (10_state.md R26, R148). Its accesses to memory are not the core's: they are not recorded in `trace`
and cost no cycles (R144). -/

namespace Sys2Proof.Machine

/-- Lets a host transaction through only while the core is idle after a reset. -/
def whileIdle {α : Type} (s : State) (r : α) : Host.Outcome α Fault Refusal :=
  match s.phase with
  | .beforeReset => .refused .beforeFirstReset
  | .idle => .next r
  | .running => .refused .hostMoveWhileRunning

/-- What `resetToVector(v)` writes (R140, 10_state.md R25): `PC` takes the vector VALUE; `CYC`, the parameter and the two output
streams are not touched. -/
def resetState (v : Addr) (s : State) : State :=
  { s with pc := v, sp := Config.spReset, a := 0x00, x := 0x00, y := 0x00, p := 0x00, mem := s.mem.init, phase := .idle }

/-- `resetToVector(v)`: one transaction, issued at any time the core does not run (R140, R142). -/
def resetToVector (v : Addr) (s : State) : Host.Outcome State Fault Refusal :=
  match s.phase with
  | .beforeReset => .next (resetState v s)
  | .idle => .next (resetState v s)
  | .running => .refused .hostMoveWhileRunning

/-- `reset()`: `resetToVector(0xFFFC)` (R140). -/
def resetDefault (s : State) : Host.Outcome State Fault Refusal := resetToVector Config.resetVectorDefault s

/-- The host writes one byte of memory (R144). -/
def hostWrite (a : Addr) (v : Byte) (s : State) : Host.Outcome State Fault Refusal :=
  whileIdle s { s with mem := s.mem.write a v }

/-- The host writes a program image from `a` up (R144). -/
def hostLoad (a : Addr) (bytes : List Byte) (s : State) : Host.Outcome State Fault Refusal :=
  whileIdle s { s with mem := s.mem.load a bytes }

/-- The host reads one byte of memory (R144). -/
def hostRead (a : Addr) (s : State) : Host.Outcome Byte Fault Refusal := whileIdle s (byteAt a s)

/-- What the host reads of the core: the six registers of the data contract, and for testing `CYC` and the diagnostic events
(R145, 92_eei_decisions.md D25). -/
structure Observation where
  pc : Addr
  sp : Byte
  a : Byte
  x : Byte
  y : Byte
  p : Byte
  cyc : Int
  diag : List DiagEvent
  deriving DecidableEq, Repr

/-- The host reads the registers (R145). -/
def observe (s : State) : Host.Outcome Observation Fault Refusal :=
  whileIdle s { pc := s.pc, sp := s.sp, a := s.a, x := s.x, y := s.y, p := s.p, cyc := s.cyc, diag := s.diag }

/-- The host calls `run(budget)`: the core is running from here on (40_core_loop.md R90). -/
def callRun (budget : Int) (s : State) : Host.Outcome State Fault Refusal := whileIdle s (enterRun budget s)

/-- The whole of `run(budget)`, from the call to its return (R90). Every instruction costs at least one cycle, so
`budget` turns execute all of them and one more turn ends the run (40_core_loop.md R93). -/
def run (budget : Int) (s : State) : Host.Outcome State Fault Refusal :=
  match callRun budget s with
  | .next t => loop (budget.toNat + 1) t
  | .fault r => .fault r
  | .refused r => .refused r

/-- How many instructions `run(budget)` executes from an idle state (40_core_loop.md R93). -/
def runCount (budget : Int) (s : State) : Nat := instrCount budget.toNat (enterRun budget s)

/-- The host's moves that change the machine's state (00_scope.md R7). -/
inductive HostMove where
  | resetToVector (v : Addr)
  | write (a : Addr) (v : Byte)
  | callRun (budget : Int)
  deriving DecidableEq, Repr

/-- What a host move does. -/
def hostMove : HostMove → State → Host.Outcome State Fault Refusal
  | .resetToVector v, s => Sys2Proof.Machine.resetToVector v s
  | .write a v, s => hostWrite a v s
  | .callRun budget, s => Sys2Proof.Machine.callRun budget s

/-- A state in which the next turn executes the instruction given as bytes: the host has written them at `PC` and called
`run`, with a budget of 1 (the idiom of 40_core_loop.md R97) unless `CYC` is positive already (log entry 6). -/
def placeInstr (bytes : List Byte) (s : State) : State :=
  { s with mem := s.mem.load s.pc bytes, phase := .running, cyc := if 0 < s.cyc then s.cyc else 1 }

end Sys2Proof.Machine
end

