-- ==== Sys2Proof/Machine/Step.lean ====
section
/-! DEFINITION. The step the host interface sees: one turn of the machine (spec/40_core_loop.md R90, R91), and where the next
instruction is stored. Both only call what Machine/RunLoop.lean and Machine/HostPort.lean define. -/

namespace Sys2Proof.Machine

/-- One step: one turn of the machine. -/
def step (s : State) : Host.Outcome State Fault Refusal := turn s

/-- `s` with the instruction of the table bits `w` stored at `PC` and the core in a run that is about to fetch it. -/
def State.withFetchWord (s : State) (nbits w : Nat) : State := placeInstr (tableBytes nbits w) s

end Sys2Proof.Machine
end

