-- ==== Sys2Proof/Machine/SpecStep.lean ====
section
/-! DEFINITION. `Step()` written out as spec/40_core_loop.md R91 writes it: the opcode byte is fetched, the `case` selects the
handler, and each handler fetches its own operand bytes. The machine itself decodes a whole instruction first and then runs
its meaning; that the two agree is a statement of its own. -/

namespace Sys2Proof.Machine

/-- The handler of 0xA9 after its opcode fetch (41_load_accumulator.md R101). -/
def specLdaImm (s : State) : State :=
  let imm := fetchByte s
  updateZN imm.1 (setA imm.1 imm.2)

/-- The handler of 0xA5 after its opcode fetch (41_load_accumulator.md R102). -/
def specLdaZp (s : State) : State :=
  let z := fetchByte s
  let v := readZp z.1 z.2
  updateZN v.1 (setA v.1 v.2)

/-- The handler of 0x20 after its opcode fetch (42_subroutine.md R110). -/
def specJsr (s : State) : State :=
  let target := fetchWord s
  let s := pushWord (target.2.pc - 1) target.2
  tick 1 (setPc target.1 s)

/-- The handler of 0x60 after its opcode fetch (42_subroutine.md R111; R112 when the parameter says `corrected`). -/
def specRts (s : State) : State :=
  match s.rtsVariant with
  | .faithful =>
    let lo := stackRead s
    let hi := stackRead lo.2
    setPc (wordOf hi.1 lo.1 + 1) hi.2
  | .corrected =>
    let lo := stackRead (setSp (s.sp + 1) s)
    let hi := stackRead (setSp (lo.2.sp + 1) lo.2)
    setPc (wordOf hi.1 lo.1 + 1) hi.2

/-- `Step()` (40_core_loop.md R91, R92). -/
def specStep (s : State) : State :=
  let op := fetchByte s
  if op.1 = 0xA9 then specLdaImm op.2
  else if op.1 = 0xA5 then specLdaZp op.2
  else if op.1 = 0x20 then specJsr op.2
  else if op.1 = 0x60 then specRts op.2
  else emitDiag op.1 (op.2.pc - 1) op.2

end Sys2Proof.Machine
end

