-- ==== Sys2Proof/Safety.lean ====
section
/-! DEFINITION. What counts as a safe run, in the terms the statements use: the machine's invariant, the states the machine can
be in, and what two states must share for the core to behave alike in them. -/

namespace Sys2Proof.Machine

/-- What holds at every moment after the first reset: `P` has no bit but Z and N (10_state.md R17 (a)), `X` and `Y` are 0
(R12), and memory has its canonical form. -/
structure State.Inv (s : State) : Prop where
  onlyZN : s.p &&& 0x7D = 0
  xZero : s.x = 0
  yZero : s.y = 0
  memWf : s.mem.wf = true

/-- The states of a launch: any state before the first reset (10_state.md R26), then the host's moves and the core's steps. -/
inductive Reachable : State → Prop where
  | powerOn (s : State) : s.phase = .beforeReset → Reachable s
  | host (m : HostMove) (s t : State) : Reachable s → hostMove m s = .next t → Reachable t
  | core (s t : State) : Reachable s → step s = .next t → Reachable t

/-- The two states agree on everything that an instruction reads: `PC`, `SP`, `CYC`, memory, the phase and the parameter. They
may differ in `A`, `X`, `Y`, `P` and the output streams, which no instruction reads (10_state.md R29). -/
structure SameControl (s t : State) : Prop where
  pc : s.pc = t.pc
  sp : s.sp = t.sp
  cyc : s.cyc = t.cyc
  mem : s.mem = t.mem
  phase : s.phase = t.phase
  rtsVariant : s.rtsVariant = t.rtsVariant

/-- The fields no instruction and no host move but reset ever writes, and the parameter, are the same in both states. -/
structure SameConstants (s t : State) : Prop where
  x : s.x = t.x
  y : s.y = t.y
  phase : s.phase = t.phase
  rtsVariant : s.rtsVariant = t.rtsVariant

/-- The address lies in the stack page, 0x0100 to 0x01FF (20_memory.md R47). -/
abbrev InStackPage (a : Addr) : Prop := 0x0100 ≤ a.toNat ∧ a.toNat ≤ 0x01FF

end Sys2Proof.Machine
end

