-- ==== Sys2Proof/Certificates/Slice0/Obligations.lean ====
section
/-! DEFINITION. The statements for the provers: what spec/'s numbered rules say that the machine does. -/

open Sys2Proof Sys2Proof.Machine

/-! ### Decoding and encoding (30_encoding.md) -/

/-- The bytes the spec writes out for one instruction of each family decode to it (R66, R70; 95_test_vectors.md V-J1, V-L4,
V-L9, V-U2, E6). -/
def Obligations.DecoderReadsTheSpecsBytes : Prop :=
  decode [0x20, 0x34, 0x12] = .ok (.jsr 0x1234, []) ∧
  decode [0x60] = .ok (.rts, []) ∧
  decode [0xA5, 0x10] = .ok (.ldaZp 0x10, []) ∧
  decode [0xA9, 0x80] = .ok (.ldaImm 0x80, []) ∧
  decode [0xEA] = .ok (.unk 0xEA, [])

/-- For every opcode byte the table row it selects carries the mnemonic, length and cycle cost of the instruction that the
decoder reads (R66, R69). -/
def Obligations.OpcodeTableRowMatchesDecodedInstruction : Prop :=
  ∀ op b1 b2 : Byte,
    (rowOf op).map (fun r => (r.mnemonic, r.length, r.cycles)) =
      some ((decodeOp op b1 b2).mnemonic, (decodeOp op b1 b2).length, (decodeOp op b1 b2).cycles)

/-- Decoding an encoded well-formed instruction gives it back, whatever bytes follow it, with every operand at every value. -/
def Obligations.DecodeOfEncodeGivesTheInstruction : Prop :=
  ∀ (i : Instr) (rest : List Byte), i.WellFormed → decode (encode i ++ rest) = .ok (i, rest)

/-- Whatever the decoder reads is well-formed, and encoding it gives back exactly the bytes that were consumed. -/
def Obligations.EncodeOfDecodeGivesTheBytes : Prop :=
  ∀ (bytes rest : List Byte) (i : Instr), decode bytes = .ok (i, rest) → i.WellFormed ∧ encode i ++ rest = bytes

/-- The decoder is total: three bytes always hold a whole well-formed instruction, and it is `unk` exactly when the opcode byte
is none of 0x20, 0x60, 0xA5, 0xA9 (R68, R69). -/
def Obligations.EveryOpcodeByteDecodes : Prop :=
  ∀ (op b1 b2 : Byte) (rest : List Byte), ∃ i rest',
    decode (op :: b1 :: b2 :: rest) = .ok (i, rest') ∧ i.WellFormed ∧
    (i = .unk op ↔ op ∉ [0x20, 0x60, 0xA5, 0xA9])

/-- The opcode byte alone tells the length: 2 for 0xA9 and 0xA5, 3 for 0x20, 1 for every other (R62). -/
def Obligations.OpcodeByteAloneGivesTheLength : Prop :=
  ∀ (op : Byte) (bytes rest : List Byte) (i : Instr), decode (op :: bytes) = .ok (i, rest) →
    bytes.length + 1 = rest.length + (if op = 0xA9 ∨ op = 0xA5 then 2 else if op = 0x20 then 3 else 1)

/-! ### Memory and the core primitives (20_memory.md, 40_core_loop.md) -/

/-- `MemRead` gives the byte and changes nothing of the machine; `MemWrite` sets that byte and no other, and touches no register
and not `CYC`, at every address (R40). -/
def Obligations.MemoryReadsAndWritesBytes : Prop :=
  (∀ (a : Addr) (s : State), (memRead a s).1 = byteAt a s ∧ (memRead a s).2 = { s with trace := (memRead a s).2.trace }) ∧
  (∀ (a : Addr) (v : Byte) (s : State),
    memWrite a v s = { s with mem := (memWrite a v s).mem, trace := (memWrite a v s).trace } ∧
    ∀ b, byteAt b (memWrite a v s) = if b = a then v else byteAt b s)

/-- Each byte access appends one event to the record of accesses, and a 16-bit quantity is two byte accesses: `FetchWord` reads
the low byte first, `PushWord` writes the high byte first (R8, R41, R43). That a record is kept is the model's choice (log entry
8), and the order is the spec's own decision D8. -/
def Obligations.EveryByteAccessIsRecordedInOrder : Prop :=
  ∀ (a v : Addr) (b : Byte) (s : State),
    (memRead a s).2.trace = s.trace ++ [.read a (byteAt a s)] ∧
    (memWrite a b s).trace = s.trace ++ [.write a b] ∧
    (fetchWord s).2.trace = s.trace ++ [.read s.pc (byteAt s.pc s), .read (s.pc + 1) (byteAt (s.pc + 1) s)] ∧
    (pushWord v s).trace = s.trace ++ [.write (stackAddr s.sp) (hiByte v), .write (stackAddr (s.sp - 1)) (loByte v)]

/-- Two memories in canonical form that read alike at every address are the same data. -/
def Obligations.CanonicalMemoriesReadingAlikeAreEqual : Prop :=
  ∀ m m' : Memory, m.wf = true → m'.wf = true → (∀ a : Addr, m.read a = m'.read a) → m = m'

/-- `FetchByte` (R80): the byte at `PC`; `PC` one further modulo 2^16, `CYC` one less, and nothing else of the machine. -/
def Obligations.FetchByteAdvancesByOne : Prop :=
  ∀ s : State,
    (fetchByte s).1 = byteAt s.pc s ∧
    (fetchByte s).2 = { s with pc := s.pc + 1, cyc := s.cyc - 1, trace := (fetchByte s).2.trace } ∧
    (s.pc = 0xFFFF → (fetchByte s).2.pc = 0x0000)

/-- `FetchWord` (R81): low byte first, `PC` two further, `CYC` two less; the same as two `FetchByte`s, the first giving the low byte;
at 0xFFFF the high byte comes from 0x0000, which is the spec's own decision D20. The record of accesses it pins is kept by the
model's choice (log entry 8). -/
def Obligations.FetchWordIsLittleEndian : Prop :=
  ∀ s : State,
    fetchWord s = (wordOf (byteAt (s.pc + 1) s) (byteAt s.pc s),
      { s with pc := s.pc + 2, cyc := s.cyc - 2,
               trace := s.trace ++ [.read s.pc (byteAt s.pc s), .read (s.pc + 1) (byteAt (s.pc + 1) s)] }) ∧
    fetchWord s = (wordOf (fetchByte (fetchByte s).2).1 (fetchByte s).1, (fetchByte (fetchByte s).2).2) ∧
    (s.pc = 0xFFFF → (fetchWord s).1 = wordOf (byteAt 0x0000 s) (byteAt 0xFFFF s))

/-- `ReadZP(z)` (R82): the byte at the zero-extended address, which lies in 0x0000 to 0x00FF; `CYC` one less; `PC` untouched. -/
def Obligations.ZeroPageReadStaysInTheZeroPage : Prop :=
  ∀ (z : Byte) (s : State),
    (zext16 z).toNat = z.toNat ∧ (zext16 z).toNat ≤ 0x00FF ∧
    (readZp z s).1 = byteAt (zext16 z) s ∧
    (readZp z s).2 = { s with cyc := s.cyc - 1, trace := (readZp z s).2.trace }

/-- `StackAddr()` (R83): `0x0100 | SP`, which is `0x0100 + SP` and lies in the stack page. -/
def Obligations.StackAddressLiesInTheStackPage : Prop :=
  ∀ sp : Byte, stackAddr sp = 0x0100 ||| zext16 sp ∧ (stackAddr sp).toNat = 0x0100 + sp.toNat ∧ InStackPage (stackAddr sp)

/-- `PushWord(v)` (R84): high byte at the stack address, low byte one below modulo 2^8 within the page, `SP` two less, no cycle
cost; with `SP = 0x00` the two bytes go to 0x0100 and 0x01FF and `SP` ends at 0xFE. -/
def Obligations.PushWordWritesHighThenLow : Prop :=
  ∀ (v : Addr) (s : State),
    pushWord v s = { s with mem := (s.mem.write (stackAddr s.sp) (hiByte v)).write (stackAddr (s.sp - 1)) (loByte v),
                            sp := s.sp - 2,
                            trace := (pushWord v s).trace } ∧
    byteAt (stackAddr s.sp) (pushWord v s) = hiByte v ∧
    byteAt (stackAddr (s.sp - 1)) (pushWord v s) = loByte v ∧
    (∀ a, a ≠ stackAddr s.sp → a ≠ stackAddr (s.sp - 1) → byteAt a (pushWord v s) = byteAt a s) ∧
    (s.sp = 0x00 → byteAt 0x0100 (pushWord v s) = hiByte v ∧ byteAt 0x01FF (pushWord v s) = loByte v ∧
      (pushWord v s).sp = 0xFE)

/-- `StackRead()` (R85): the byte at the stack address, not at the zero-page address `SP` (the spec's own decision D19); one
cycle; `SP` unchanged. `Tick(n)` (R86): `CYC` falls by `n`, below zero where it must, and nothing else happens. The record of
accesses it pins is kept by the model's choice (log entry 8). -/
def Obligations.StackReadAndTickKeepTheStackPointer : Prop :=
  (∀ s : State, stackRead s = (byteAt (stackAddr s.sp) s,
    { s with cyc := s.cyc - 1, trace := s.trace ++ [.read (stackAddr s.sp) (byteAt (stackAddr s.sp) s)] })) ∧
  (∀ (n : Nat) (s : State), tick n s = { s with cyc := s.cyc - n })

/-! ### Flags (10_state.md, 41_load_accumulator.md) -/

/-- The five flag operations (R20 to R24), for each of the eight bits of `P`; and an instruction leaves `P` as it was or as
`UpdateZN` makes it (R100, R17 (a) and (c), which the spec marks as derived). -/
def Obligations.FlagOperationsAreBitAlgebra : Prop :=
  (∀ (f : Flag) (s : State),
    setFlag f s = { s with p := s.p ||| f.mask } ∧
    setFlagIf true f s = { s with p := s.p ||| f.mask } ∧
    setFlagIf false f s = s ∧
    clearFlag f s = { s with p := s.p &&& ~~~f.mask } ∧
    toggleFlag f s = { s with p := s.p ^^^ f.mask } ∧
    (hasFlag f s = true ↔ s.p &&& f.mask ≠ 0)) ∧
  (∀ (i : Instr) (s t : State), exec i s = .next t → t.p = s.p ∨ ∃ v, t.p = (updateZN v s).p)

/-- The bits of `P` (R16): C, Z, I, D, B, the unused bit, V and N at bits 0 to 7. -/
def Obligations.FlagMasksFollowTheBitLayout : Prop :=
  [Flag.c, .z, .i, .d, .b, .u, .v, .n].map Flag.mask = (List.range 8).map fun k => BitVec.ofNat 8 (2 ^ k)

/-- `UpdateZN(v)` (R100): the closed form, and its truth table. -/
def Obligations.UpdateZnSetsAndNeverClears : Prop :=
  ∀ (v : Byte) (s : State),
    updateZN v s = { s with p := s.p ||| (if v = 0x00 then 0x02 else 0x00) ||| (v &&& 0x80) } ∧
    (v = 0x00 → updateZN v s = { s with p := s.p ||| 0x02 }) ∧
    (0x01 ≤ v.toNat ∧ v.toNat ≤ 0x7F → updateZN v s = s) ∧
    (0x80 ≤ v.toNat → updateZN v s = { s with p := s.p ||| 0x80 })

/-! ### What each instruction does (40_core_loop.md, 41_load_accumulator.md, 42_subroutine.md) -/

/-- `LDA` immediate (R101): encoding, and the whole state after the step. The record of accesses in it is kept by the model's choice
(log entry 8), in the order of the spec's own decision D8. -/
def Obligations.LdaImmediateLoadsItsOperand : Prop :=
  ∀ (imm : Byte) (s : State),
    encode (.ldaImm imm) = [0xA9, imm] ∧ decode [0xA9, imm] = .ok (.ldaImm imm, []) ∧
    exec (.ldaImm imm) s = .next { s with
      a := imm
      pc := s.pc + 2
      cyc := s.cyc - 2
      p := s.p ||| (if imm = 0x00 then 0x02 else 0x00) ||| (imm &&& 0x80)
      trace := s.trace ++ [.read s.pc (byteAt s.pc s), .read (s.pc + 1) (byteAt (s.pc + 1) s)] }

/-- `LDA` zero-page (R102): encoding, and the whole state after the step. The record of accesses in it is kept by the model's choice
(log entry 8), in the order of the spec's own decision D8. -/
def Obligations.LdaZeroPageLoadsTheAddressedByte : Prop :=
  ∀ (z : Byte) (s : State),
    encode (.ldaZp z) = [0xA5, z] ∧ decode [0xA5, z] = .ok (.ldaZp z, []) ∧
    exec (.ldaZp z) s = .next { s with
      a := byteAt (zext16 z) s
      pc := s.pc + 2
      cyc := s.cyc - 3
      p := s.p ||| (if byteAt (zext16 z) s = 0x00 then 0x02 else 0x00) ||| (byteAt (zext16 z) s &&& 0x80)
      trace := s.trace ++ [.read s.pc (byteAt s.pc s), .read (s.pc + 1) (byteAt (s.pc + 1) s),
                           .read (zext16 z) (byteAt (zext16 z) s)] }

/-- `JSR` (R110): encoding, and the whole state after the step. The word pushed is the address of the instruction's last byte, `PC`
after the operand fetch minus 1, which is the spec's own decision D18. The record of accesses in it is kept by the model's choice
(log entry 8), in the order of the spec's own decision D8. -/
def Obligations.JsrPushesReturnAddressAndJumps : Prop :=
  ∀ (target : Addr) (s : State),
    encode (.jsr target) = [0x20, loByte target, hiByte target] ∧
    decode [0x20, loByte target, hiByte target] = .ok (.jsr target, []) ∧
    exec (.jsr target) s = .next { s with
      mem := (s.mem.write (stackAddr s.sp) (hiByte (s.pc + 2))).write (stackAddr (s.sp - 1)) (loByte (s.pc + 2))
      sp := s.sp - 2
      pc := target
      cyc := s.cyc - 4
      trace := s.trace ++ [.read s.pc (byteAt s.pc s), .read (s.pc + 1) (byteAt (s.pc + 1) s),
                           .read (s.pc + 2) (byteAt (s.pc + 2) s),
                           .write (stackAddr s.sp) (hiByte (s.pc + 2)),
                           .write (stackAddr (s.sp - 1)) (loByte (s.pc + 2))] } ∧
    (∀ t, exec (.jsr target) s = .next t →
      byteAt (stackAddr s.sp) t = hiByte (s.pc + 2) ∧ byteAt (stackAddr (s.sp - 1)) t = loByte (s.pc + 2))

/-- `RTS`, faithful (R111): encoding, and the whole state after the step. The byte at the current `SP` is read twice, `SP` is not
changed, and the new `PC` is `b * 0x0101 + 1` modulo 2^16. That the byte lies in the stack page is the spec's own decision D19.
The record of accesses in it is kept by the model's choice (log entry 8), in the order of the spec's own decision D8. -/
def Obligations.FaithfulRtsJumpsThroughOneStackByte : Prop :=
  encode .rts = [0x60] ∧ decode [0x60] = .ok (.rts, []) ∧
  ∀ s : State, s.rtsVariant = .faithful →
    exec .rts s = .next { s with
      pc := wordOf (byteAt (stackAddr s.sp) s) (byteAt (stackAddr s.sp) s) + 1
      cyc := s.cyc - 3
      trace := s.trace ++ [.read s.pc (byteAt s.pc s), .read (stackAddr s.sp) (byteAt (stackAddr s.sp) s),
                           .read (stackAddr s.sp) (byteAt (stackAddr s.sp) s)] } ∧
    (∀ t, exec .rts s = .next t → t.pc.toNat = ((byteAt (stackAddr s.sp) s).toNat * 0x0101 + 1) % 65536)

/-- `RTS`, corrected (R112, the spec's own construction, decision D1): the whole state after the step, and the inverse law: `JSR`
and then `RTS` restores `SP` and goes to the instruction after the `JSR`. The record of accesses in it is kept by the model's
choice (log entry 8), in the order of the spec's own decision D8. -/
def Obligations.CorrectedRtsInvertsThePush : Prop :=
  ∀ s : State, s.rtsVariant = .corrected →
    exec .rts s = .next { s with
      sp := s.sp + 2
      pc := wordOf (byteAt (stackAddr (s.sp + 2)) s) (byteAt (stackAddr (s.sp + 1)) s) + 1
      cyc := s.cyc - 3
      trace := s.trace ++ [.read s.pc (byteAt s.pc s),
                           .read (stackAddr (s.sp + 1)) (byteAt (stackAddr (s.sp + 1)) s),
                           .read (stackAddr (s.sp + 2)) (byteAt (stackAddr (s.sp + 2)) s)] } ∧
    (∀ target, ∃ t u, exec (.jsr target) s = .next t ∧ exec .rts t = .next u ∧ u.sp = s.sp ∧ u.pc = s.pc + 3)

/-- `JSR` and then a faithful `RTS` (R113, R153, 95_test_vectors.md E6; the address read is the spec's own decision D19): the two
stack bytes stay consumed, and the jump goes through the free byte below the pushed word. -/
def Obligations.FaithfulRtsAfterJsrDoesNotReturn : Prop :=
  ∀ (target : Addr) (s : State), s.rtsVariant = .faithful →
    ∃ t u, exec (.jsr target) s = .next t ∧ exec .rts t = .next u ∧ u.sp = s.sp - 2 ∧
      u.pc = wordOf (byteAt (stackAddr (s.sp - 2)) s) (byteAt (stackAddr (s.sp - 2)) s) + 1

/-- The unknown opcode (R92): every byte other than the four decodes to it; it advances `PC` by 1, costs 1 cycle, appends one event
and changes nothing else. That the event carries the address the byte was fetched from is the spec's own decision D5 (log entry
7). The record of accesses in it is kept by the model's choice (log entry 8). -/
def Obligations.UnknownOpcodeIsReportedAndPassedOver : Prop :=
  ∀ (op : Byte) (s : State), op ∉ [0x20, 0x60, 0xA5, 0xA9] →
    decode [op] = .ok (.unk op, []) ∧
    exec (.unk op) s = .next { s with
      pc := s.pc + 1
      cyc := s.cyc - 1
      diag := s.diag ++ [⟨op, s.pc⟩]
      trace := s.trace ++ [.read s.pc (byteAt s.pc s)] }

/-- Every instruction, in every state, answers a next state: the machine raises no exception (R120). -/
def Obligations.EveryInstructionCompletes : Prop :=
  ∀ (i : Instr) (s : State), ∃ t, exec i s = .next t

/-- The cycle cost of an instruction is what it subtracts from `CYC`: 4, 3, 3, 2, 1, whatever the operands, the addresses and
the flags (R88). -/
def Obligations.InstructionCostsAreFixed : Prop :=
  ∀ (i : Instr) (s t : State), exec i s = .next t →
    s.cyc - t.cyc = match i with
      | .jsr _ => 4
      | .rts => 3
      | .ldaZp _ => 3
      | .ldaImm _ => 2
      | .unk _ => 1

/-! ### Frames: what an instruction leaves unchanged -/

/-- The two loads write `A`, `PC`, `CYC` and the Z and N bits of `P`, and nothing else of the machine; they store nothing (R29,
R101, R102). -/
def Obligations.LoadsLeaveTheRestUnchanged : Prop :=
  ∀ (i : Instr) (s t : State), (∃ z, i = .ldaZp z) ∨ (∃ imm, i = .ldaImm imm) → exec i s = .next t →
    t.sp = s.sp ∧ t.diag = s.diag ∧ SameConstants s t ∧ t.p &&& 0x7D = s.p &&& 0x7D ∧
    ∀ a, byteAt a t = byteAt a s

/-- `JSR` writes `SP`, `PC`, `CYC` and the two bytes at the stack addresses of `SP` and `SP - 1`, and nothing else of the
machine (R29, R110). -/
def Obligations.JsrLeavesTheRestUnchanged : Prop :=
  ∀ (target : Addr) (s t : State), exec (.jsr target) s = .next t →
    t.a = s.a ∧ t.p = s.p ∧ t.diag = s.diag ∧ SameConstants s t ∧
    ∀ a, a ≠ stackAddr s.sp → a ≠ stackAddr (s.sp - 1) → byteAt a t = byteAt a s

/-- `RTS` writes `PC` and `CYC`, and in the corrected variant `SP`, and nothing else of the machine; it stores nothing (R29,
R111, R112). -/
def Obligations.RtsLeavesTheRestUnchanged : Prop :=
  ∀ s t : State, exec .rts s = .next t →
    t.a = s.a ∧ t.p = s.p ∧ t.diag = s.diag ∧ SameConstants s t ∧
    (s.rtsVariant = .faithful → t.sp = s.sp) ∧ (s.rtsVariant = .corrected → t.sp = s.sp + 2) ∧
    ∀ a, byteAt a t = byteAt a s

/-- The unknown opcode writes `PC`, `CYC` and the diagnostic output, and nothing else of the machine; it stores nothing (R29,
R92). -/
def Obligations.UnknownOpcodeLeavesTheRestUnchanged : Prop :=
  ∀ (op : Byte) (s t : State), exec (.unk op) s = .next t →
    t.a = s.a ∧ t.sp = s.sp ∧ t.p = s.p ∧ SameConstants s t ∧ ∀ a, byteAt a t = byteAt a s

/-! ### Rules over all instructions -/

/-- No instruction writes outside the stack page, and only `JSR` writes memory at all (R42, R47). -/
def Obligations.OnlyJsrStoresAndOnlyInTheStackPage : Prop :=
  ∀ (i : Instr) (s t : State), exec i s = .next t →
    (∀ a, ¬ InStackPage a → byteAt a t = byteAt a s) ∧ ((∀ target, i ≠ .jsr target) → t.mem = s.mem)

/-- `SP` moves only by 2: down in `JSR`, up in a corrected `RTS`; with the faithful parameter no instruction raises it (R13). -/
def Obligations.StackPointerMovesOnlyInSubroutineInstructions : Prop :=
  ∀ (i : Instr) (s t : State), exec i s = .next t →
    t.sp = s.sp ∨ (∃ target, i = .jsr target ∧ t.sp = s.sp - 2) ∨
      (i = .rts ∧ s.rtsVariant = .corrected ∧ t.sp = s.sp + 2)

/-- Only an unknown opcode appends to the diagnostic output, one event a step, which carries the opcode (R122, R131). That it also
carries the address the opcode was fetched from is the spec's own decision D5, and that the events are kept as a list is the
model's choice (log entry 7). -/
def Obligations.OnlyUnknownOpcodesAreReported : Prop :=
  ∀ (i : Instr) (s t : State), exec i s = .next t →
    t.diag = s.diag ++ match i with
      | .unk op => [⟨op, s.pc⟩]
      | .jsr _ => []
      | .rts => []
      | .ldaZp _ => []
      | .ldaImm _ => []

/-- No instruction reads `CYC`: started with another count, it does the same and the count differs by as much after (R128). -/
def Obligations.NoInstructionReadsTheCycleCounter : Prop :=
  ∀ (i : Instr) (s t : State) (c : Int), exec i s = .next t →
    exec i { s with cyc := c } = .next { t with cyc := c - (s.cyc - t.cyc) }

/-- Both bytes that a `JSR` pushed, whatever its target, are what a later fetch of their addresses sees (R54; the spec's own
decision D13): the fetch may come in any state `u` that has the memory the `JSR` left. Where the target is the high byte's
address, that byte is the next opcode. -/
def Obligations.FetchSeesThePushedByte : Prop :=
  ∀ (target : Addr) (s : State), ∃ t, exec (.jsr target) s = .next t ∧
    (∀ u : State, u.mem = t.mem →
      (u.pc = stackAddr s.sp → (fetchByte u).1 = hiByte (s.pc + 2)) ∧
      (u.pc = stackAddr (s.sp - 1) → (fetchByte u).1 = loByte (s.pc + 2))) ∧
    (target = stackAddr s.sp → ∃ b1 b2, instrBytes t = [hiByte (s.pc + 2), b1, b2])

/-! ### The step (40_core_loop.md R90, R91) -/

/-- Inside a run whose budget test holds, the bytes at `PC` decode to an instruction and the step is that instruction's
meaning at that state, with nothing around it. -/
def Obligations.StepRunsTheDecodedInstruction : Prop :=
  ∀ s : State, s.Executing →
    (∃ i rest, decode (instrBytes s) = .ok (i, rest) ∧ i.WellFormed) ∧
    (∀ i rest, decode (instrBytes s) = .ok (i, rest) → step s = exec i s)

/-- Outside that: with no budget left the run ends and only the phase changes; an idle core keeps its whole state; before the first
reset there is no step (R90, R94, R132, R148). The idle step and the phase field are the model's choice (log entries 4, 5). -/
def Obligations.StepOutsideARunExecutesNothing : Prop :=
  ∀ s : State,
    (s.phase = .running ∧ s.cyc ≤ 0 → step s = .next { s with phase := .idle }) ∧
    (s.phase = .idle → step s = .next s) ∧
    (s.phase = .beforeReset → step s = .refused .beforeFirstReset)

/-- Decoding the whole instruction first and then running its meaning (log entry 9) is the spec's `Step()`, in which each handler
fetches its own operand bytes (R91). `specStep` carries the spec's own decisions D1 (the corrected `RTS`), D5 (the event's
address), D18 (the word `JSR` pushes) and D19 (the page `RTS` reads), and both sides keep the record of accesses (D8, log entry
8). -/
def Obligations.StepRefinesTheSpecsStep : Prop :=
  ∀ s : State, s.Executing → step s = .next (specStep s)

/-- The bytes in memory at `PC`, `PC + 1` and `PC + 2` (modulo 2^16) select what a step runs (R60, R61, R63). -/
def Obligations.BytesAtPcSelectTheInstruction : Prop :=
  ∀ s : State, s.Executing →
    (byteAt s.pc s = 0xA9 → step s = exec (.ldaImm (byteAt (s.pc + 1) s)) s) ∧
    (byteAt s.pc s = 0xA5 → step s = exec (.ldaZp (byteAt (s.pc + 1) s)) s) ∧
    (byteAt s.pc s = 0x20 → step s = exec (.jsr (wordOf (byteAt (s.pc + 2) s) (byteAt (s.pc + 1) s))) s) ∧
    (byteAt s.pc s = 0x60 → step s = exec .rts s) ∧
    (byteAt s.pc s ∉ [0x20, 0x60, 0xA5, 0xA9] → step s = exec (.unk (byteAt s.pc s)) s)

/-- After the first reset every step answers a next state: nothing traps, faults or refuses (R120, R123). -/
def Obligations.StepAlwaysAnswersAfterReset : Prop :=
  ∀ s : State, s.phase ≠ .beforeReset → ∃ t, step s = .next t

/-! ### Invariants -/

/-- Every step keeps the invariant: `P` holds no bit but Z and N, `X` and `Y` are 0, memory is in canonical form (R12, R17). -/
def Obligations.StepKeepsTheInvariant : Prop :=
  ∀ s t : State, s.Inv → step s = .next t → t.Inv

/-- The state after reset meets the invariant. -/
def Obligations.ResetStateMeetsTheInvariant : Prop := State.reset.Inv

/-- Every host move keeps the invariant, and a reset establishes it from any state whatever (R140, R144). -/
def Obligations.HostMovesKeepTheInvariant : Prop :=
  (∀ (m : HostMove) (s t : State), s.Inv → hostMove m s = .next t → t.Inv) ∧
  (∀ (v : Addr) (s t : State), resetToVector v s = .next t → t.Inv)

/-- At every moment of every launch after the first reset: `P` is one of 0x00, 0x02, 0x80, 0x82, `X` and `Y` are 0, and memory
is in canonical form (R12, R17). -/
def Obligations.EveryMomentAfterResetIsSafe : Prop :=
  ∀ s : State, Reachable s → s.phase ≠ .beforeReset →
    s.p ∈ [(0x00 : Byte), 0x02, 0x80, 0x82] ∧ s.x = 0x00 ∧ s.y = 0x00 ∧ s.mem.wf = true

/-- Flags are sticky: no step and no host move but reset clears a bit of `P` (R17 (c), R152). -/
def Obligations.FlagsAreStickyUntilReset : Prop :=
  (∀ s t : State, step s = .next t → s.p &&& t.p = s.p) ∧
  (∀ (m : HostMove) (s t : State), hostMove m s = .next t → (∀ v, m ≠ .resetToVector v) → t.p = s.p)

/-- No step reads `A`, `X`, `Y`, `P` or the output streams: two states that differ in these alone stay so (R17 (b), R29, R62). -/
def Obligations.UnreadRegistersDoNotInfluenceAStep : Prop :=
  ∀ s s' t : State, SameControl s s' → step s = .next t → ∃ t', step s' = .next t' ∧ SameControl t t'

/-- No step and no host move changes the parameter `RTS_VARIANT`, which the model keeps in State by its own choice (log entry 2);
no step changes `X` or `Y` (R12). -/
def Obligations.ParameterAndIndexRegistersAreConstant : Prop :=
  (∀ s t : State, step s = .next t → t.rtsVariant = s.rtsVariant ∧ t.x = s.x ∧ t.y = s.y) ∧
  (∀ (m : HostMove) (s t : State), hostMove m s = .next t → t.rtsVariant = s.rtsVariant)

/-! ### Runs (40_core_loop.md R90 to R97) -/

/-- From an idle state `run(budget)` always returns, idle, and for a budget of at least 1 with `CYC` at 0, -1, -2 or -3 (R94, which
the spec marks as derived). The model's `run` takes at most budget + 1 turns (log entry 11); this says that they suffice. -/
def Obligations.RunReturnsWithBoundedOvershoot : Prop :=
  ∀ (budget : Int) (s : State), s.phase = .idle →
    ∃ t, run budget s = .next t ∧ t.phase = .idle ∧ t.cyc ≤ 0 ∧ (1 ≤ budget → -3 ≤ t.cyc)

/-- For every budget the entry to `run` writes `CYC` and nothing else before the first step (R90), the model's own phase apart (log
entry 4); with a budget of zero or less the run then executes no step and no other state changes (R95, which the spec marks as
derived). -/
def Obligations.RunWithoutBudgetExecutesNothing : Prop :=
  ∀ (budget : Int) (s : State), s.phase = .idle →
    callRun budget s = .next { s with cyc := budget, phase := .running } ∧
    (budget ≤ 0 → run budget s = .next { s with cyc := budget })

/-- Every executed step takes 1 to 4 from `CYC`; a run with budget `n >= 1` executes at least `n/4`, rounded up, and at most `n`
instructions, however many turns it is given, and terminates, idle (R93, which the spec marks as derived). That `runCount` looks
at `n` turns only (log entry 11) drops no instruction: more turns count no more. -/
def Obligations.RunExecutesBetweenQuarterBudgetAndBudget : Prop :=
  (∀ s t : State, s.Executing → step s = .next t → 1 ≤ s.cyc - t.cyc ∧ s.cyc - t.cyc ≤ 4) ∧
  (∀ (n : Nat) (s : State), s.phase = .idle → 1 ≤ n →
    n ≤ 4 * runCount n s ∧
    (∀ fuel, instrCount fuel (enterRun n s) ≤ n ∧ instrCount fuel (enterRun n s) ≤ runCount n s) ∧
    ∃ t, run n s = .next t ∧ t.phase = .idle)

/-- `run(1)` executes exactly the instruction at `PC`, in full, and returns with `CYC` between 0 and -3 (R97, which the spec marks as
derived). -/
def Obligations.RunOfOneExecutesOneInstruction : Prop :=
  ∀ s : State, s.phase = .idle →
    ∃ t, exec (instrAt s) (enterRun 1 s) = .next t ∧ run 1 s = .next { t with phase := .idle } ∧
      -3 ≤ t.cyc ∧ t.cyc ≤ 0 ∧ runCount 1 s = 1

/-- Splitting a budget is exact when the first run lands on zero: the second run then ends where one run with the sum ends (inferred
from R90 and R96; that a second run is allowed is the spec's own decision D7). -/
def Obligations.RunsSplitExactlyAtZero : Prop :=
  ∀ (n m : Nat) (s t : State), s.phase = .idle → run n s = .next t → t.cyc = 0 →
    run m t = run (n + m : Nat) s

/-- Splitting a budget over two runs executes at least as many instructions as one run with the sum (R154, which the spec marks as
derived). That a second run is allowed is the spec's own decision D7 (R96). -/
def Obligations.SplitRunsExecuteAtLeastAsMany : Prop :=
  ∀ (n m : Nat) (s t : State), s.phase = .idle → 1 ≤ n → 1 ≤ m → run n s = .next t →
    runCount (n + m : Nat) s ≤ runCount n s + runCount m t

/-! ### Reset and the host (70_reset_and_hazards.md) -/

/-- What reset leaves (R25, R140): `PC` holds the vector value itself, `SP` 0xFF, `A`, `X`, `Y` and `P` 0, every byte of memory
0, the machine idle, the diagnostic output not touched; `reset()` is `resetToVector(0xFFFC)`; not during a run. That `CYC` is not
written and that reset is one transaction are the spec's own decisions D3 and D21. -/
def Obligations.ResetWritesTheResetValues : Prop :=
  (∀ (v : Addr) (s : State), s.phase ≠ .running → ∃ t, resetToVector v s = .next t ∧
    t.pc = v ∧ t.sp = 0xFF ∧ t.a = 0x00 ∧ t.x = 0x00 ∧ t.y = 0x00 ∧ t.p = 0x00 ∧ (∀ a, byteAt a t = 0x00) ∧
    t.phase = .idle ∧ t.cyc = s.cyc ∧ t.diag = s.diag) ∧
  (∀ s : State, resetDefault s = resetToVector 0xFFFC s) ∧
  (∀ (v : Addr) (s : State), s.phase = .running → resetToVector v s = .refused .hostMoveWhileRunning)

/-- The values the spec gives for reset, in `State.reset` (R6, R25, R143); nothing is said of `CYC`, to which the spec gives none. -/
def Obligations.ResetStateHoldsTheSpecsValues : Prop :=
  State.reset.pc = 0xFFFC ∧ State.reset.sp = 0xFF ∧ State.reset.a = 0x00 ∧ State.reset.x = 0x00 ∧ State.reset.y = 0x00 ∧
  State.reset.p = 0x00 ∧ State.reset.phase = .idle ∧ State.reset.rtsVariant = .faithful ∧
  ∀ a, byteAt a State.reset = 0x00

/-- Reset is idempotent (R141): a second `reset()` yields the identical state, and so does a second `resetToVector(v)` (the half that
the spec marks as derived). -/
def Obligations.ResetIsIdempotent : Prop :=
  (∀ s t : State, resetDefault s = .next t → resetDefault t = .next t) ∧
  (∀ (v : Addr) (s t : State), resetToVector v s = .next t → resetToVector v t = .next t)

/-- The host has no move while the core runs, and before the first reset it can only reset (R26, R56, R148, R151; the spec's own
decisions D6, D10). -/
def Obligations.HostActsOnlyWhileIdle : Prop :=
  (∀ (m : HostMove) (s : State), s.phase = .running → hostMove m s = .refused .hostMoveWhileRunning) ∧
  (∀ (m : HostMove) (s : State), s.phase = .beforeReset → (∀ v, m ≠ .resetToVector v) →
    hostMove m s = .refused .beforeFirstReset) ∧
  (∀ (a : Addr) (s : State), s.phase = .running →
    hostRead a s = .refused .hostMoveWhileRunning ∧ observe s = .refused .hostMoveWhileRunning) ∧
  (∀ (a : Addr) (budget : Int) (s : State), s.phase = .beforeReset →
    hostRead a s = .refused .beforeFirstReset ∧ observe s = .refused .beforeFirstReset ∧
    run budget s = .refused .beforeFirstReset)

/-- While idle the host writes any byte and reads any byte, at no cost and with no other effect (R144; the spec's own decision D9). -/
def Obligations.HostReadsAndWritesMemoryWhileIdle : Prop :=
  ∀ s : State, s.phase = .idle →
    (∀ a, hostRead a s = .next (byteAt a s)) ∧
    ∀ (a : Addr) (v : Byte), ∃ t, hostWrite a v s = .next t ∧ t = { s with mem := t.mem } ∧
      ∀ b, byteAt b t = if b = a then v else byteAt b s

/-- While idle the host reads `PC`, `SP`, `A`, `X`, `Y`, `P` as they are (R145), and for testing `CYC` and the diagnostic events (the
spec's own decision D25). -/
def Obligations.HostObservesTheRegistersWhileIdle : Prop :=
  ∀ s : State, s.phase = .idle →
    observe s = .next { pc := s.pc, sp := s.sp, a := s.a, x := s.x, y := s.y, p := s.p, cyc := s.cyc, diag := s.diag }
end

