-- ==== Sys2Proof/Laws/Decode.lean ====
section
/-! SUPPORT. What the decoder reads for each opcode byte (spec/30_encoding.md R66, R68), and every case it can give, so that no
proof unfolds `decodeOp`. -/

namespace Sys2Proof

variable (b1 b2 : Byte)

theorem decodeOp_jsr : decodeOp 0x20 b1 b2 = .jsr (wordOf b2 b1) := rfl

theorem decodeOp_rts : decodeOp 0x60 b1 b2 = .rts := rfl

theorem decodeOp_ldaZp : decodeOp 0xA5 b1 b2 = .ldaZp b1 := rfl

theorem decodeOp_ldaImm : decodeOp 0xA9 b1 b2 = .ldaImm b1 := rfl

theorem decodeOp_unk {op : Byte} (h : op ∉ assignedOpcodes) : decodeOp op b1 b2 = .unk op := by
  simp only [assignedOpcodes, List.mem_cons, not_or, List.not_mem_nil, not_false_eq_true, and_true] at h
  unfold decodeOp
  rw [if_neg h.1, if_neg h.2.1, if_neg h.2.2.1, if_neg h.2.2.2]

/-- Every case of the decoder. -/
theorem decodeOp_cases (op : Byte) :
    (op = 0x20 ∧ decodeOp op b1 b2 = .jsr (wordOf b2 b1)) ∨ (op = 0x60 ∧ decodeOp op b1 b2 = .rts) ∨
    (op = 0xA5 ∧ decodeOp op b1 b2 = .ldaZp b1) ∨ (op = 0xA9 ∧ decodeOp op b1 b2 = .ldaImm b1) ∨
    (op ∉ assignedOpcodes ∧ decodeOp op b1 b2 = .unk op) := by
  by_cases h : op ∈ assignedOpcodes
  · simp only [assignedOpcodes, List.mem_cons, List.not_mem_nil, or_false] at h
    rcases h with rfl | rfl | rfl | rfl
    · exact .inl ⟨rfl, rfl⟩
    · exact .inr (.inl ⟨rfl, rfl⟩)
    · exact .inr (.inr (.inl ⟨rfl, rfl⟩))
    · exact .inr (.inr (.inr (.inl ⟨rfl, rfl⟩)))
  · exact .inr (.inr (.inr (.inr ⟨h, decodeOp_unk b1 b2 h⟩)))

/-- The list decoder in terms of `decodeOp`. -/
theorem decode_cons (op : Byte) (rest : List Byte) :
    decode (op :: rest) =
      if (decodeOp op (rest.getD 0 0) (rest.getD 1 0)).length ≤ rest.length + 1 then
        .ok (decodeOp op (rest.getD 0 0) (rest.getD 1 0),
          rest.drop ((decodeOp op (rest.getD 0 0) (rest.getD 1 0)).length - 1))
      else .error (.truncated (decodeOp op (rest.getD 0 0) (rest.getD 1 0)).length) := rfl

end Sys2Proof
end

