-- ==== Sys2Proof/Laws/Memory.lean ====
section
/-! SUPPORT. The laws of memory (spec/20_memory.md R40): a read after a write, and that every memory operation keeps the
canonical form. The read law holds of every list, canonical or not. -/

namespace Sys2Proof.Machine

/-! ### Reading -/

@[simp] theorem Memory.readNat_nil (b : Nat) : Memory.readNat [] b = 0x00 := rfl

theorem Memory.readNat_cons (c : Host.Cell) (m : Memory) (b : Nat) :
    Memory.readNat (c :: m) b = if c.1 = b then c.2 else Memory.readNat m b := rfl

theorem Memory.readNat_of_absent (m : Memory) (b : Nat) (h : ∀ c ∈ m, c.1 ≠ b) : m.readNat b = 0x00 := by
  induction m with
  | nil => rfl
  | cons c m ih =>
    rw [Memory.readNat_cons, if_neg (h c (by simp))]
    exact ih fun d hd => h d (by simp [hd])

theorem Memory.mem_remove {m : Memory} {a : Nat} {c : Host.Cell} : c ∈ m.remove a ↔ c ∈ m ∧ c.1 ≠ a := by
  simp [Memory.remove]

theorem Memory.readNat_remove (m : Memory) (a b : Nat) :
    (m.remove a).readNat b = if a = b then 0x00 else m.readNat b := by
  by_cases hab : a = b
  · subst hab
    rw [if_pos rfl]
    exact Memory.readNat_of_absent _ _ fun c hc => (Memory.mem_remove.mp hc).2
  · rw [if_neg hab]
    induction m with
    | nil => rfl
    | cons c m ih =>
      by_cases hc : c.1 = a
      · have he : Memory.remove (c :: m) a = Memory.remove m a := by simp [Memory.remove, hc]
        rw [he, ih, Memory.readNat_cons, if_neg (by omega)]
      · have he : Memory.remove (c :: m) a = c :: Memory.remove m a := by simp [Memory.remove, hc]
        rw [he, Memory.readNat_cons, Memory.readNat_cons, ih]

theorem Memory.readNat_place (m : Memory) (a b : Nat) (v : Byte) (h : ∀ c ∈ m, c.1 ≠ a) :
    (m.place a v).readNat b = if a = b then v else m.readNat b := by
  induction m with
  | nil => simp [Memory.place, Memory.readNat]
  | cons c m ih =>
    have hc : c.1 ≠ a := h c (by simp)
    unfold Memory.place
    split
    · rw [Memory.readNat_cons]
    · rw [Memory.readNat_cons, Memory.readNat_cons, ih fun d hd => h d (by simp [hd])]
      by_cases hb : c.1 = b
      · rw [if_pos hb, if_neg (by omega), if_pos hb]
      · simp [hb]

theorem Memory.readNat_writeNat (m : Memory) (a b : Nat) (v : Byte) :
    (m.writeNat a v).readNat b = if a = b then v else m.readNat b := by
  unfold Memory.writeNat
  split
  · rename_i hv
    rw [Memory.readNat_remove, hv]
  · rw [Memory.readNat_place _ _ _ _ fun c hc => (Memory.mem_remove.mp hc).2, Memory.readNat_remove]
    by_cases hab : a = b <;> simp [hab]

/-- What a read gives after a write, at every address. -/
theorem Memory.read_write (m : Memory) (a b : Addr) (v : Byte) :
    (m.write a v).read b = if a = b then v else m.read b := by
  simp only [Memory.write, Memory.read, Memory.readNat_writeNat, BitVec.toNat_inj]

@[simp] theorem Memory.read_write_same (m : Memory) (a : Addr) (v : Byte) : (m.write a v).read a = v := by
  simp [Memory.read_write]

theorem Memory.read_write_ne (m : Memory) {a b : Addr} (v : Byte) (h : a ≠ b) : (m.write a v).read b = m.read b := by
  simp [Memory.read_write, h]

@[simp] theorem Memory.read_init (m : Memory) (b : Addr) : m.init.read b = 0x00 := rfl

/-! ### The canonical form -/

/-- The canonical form as a pairwise order and a bound on each entry. -/
theorem Memory.wf_iff (m : Memory) :
    m.wf = true ↔ m.Pairwise (fun c d => c.1 < d.1) ∧ ∀ c ∈ m, c.1 < Config.memSize ∧ c.2 ≠ 0x00 := by
  have hr : ∀ l : Memory, l.rising = true ↔ l.Pairwise (fun c d => c.1 < d.1) := by
    intro l
    induction l with
    | nil => simp [Memory.rising]
    | cons c l ih =>
      cases l with
      | nil => simp [Memory.rising]
      | cons d r =>
        rw [Memory.rising, Bool.and_eq_true, decide_eq_true_eq, ih, List.pairwise_cons (l := d :: r)]
        constructor
        · rintro ⟨hcd, hp⟩
          refine ⟨fun e he => ?_, hp⟩
          rcases List.mem_cons.mp he with rfl | he
          · exact hcd
          · exact hcd.trans ((List.pairwise_cons.mp hp).1 e he)
        · rintro ⟨hall, hp⟩
          exact ⟨hall d (by simp), hp⟩
  simp only [Memory.wf, Bool.and_eq_true, hr, List.all_eq_true, decide_eq_true_eq]

theorem Memory.mem_place {m : Memory} {a : Nat} {v : Byte} {c : Host.Cell} :
    c ∈ m.place a v ↔ c = (a, v) ∨ c ∈ m := by
  induction m with
  | nil => simp [Memory.place]
  | cons d m ih =>
    unfold Memory.place
    split
    · simp
    · simp only [List.mem_cons, ih]
      tauto

theorem Memory.wf_remove {m : Memory} (a : Nat) (h : m.wf = true) : (m.remove a).wf = true := by
  rw [Memory.wf_iff] at h ⊢
  exact ⟨h.1.filter _, fun c hc => h.2 c (Memory.mem_remove.mp hc).1⟩

theorem Memory.wf_place {m : Memory} {a : Nat} {v : Byte} (h : m.wf = true) (ha : a < Config.memSize) (hv : v ≠ 0x00)
    (hn : ∀ c ∈ m, c.1 ≠ a) : (m.place a v).wf = true := by
  rw [Memory.wf_iff] at h ⊢
  refine ⟨?_, fun c hc => ?_⟩
  · have hp := h.1
    clear h
    induction m with
    | nil => simp [Memory.place]
    | cons d m ih =>
      have hd : d.1 ≠ a := hn d (by simp)
      obtain ⟨hlt, hp'⟩ := List.pairwise_cons.mp hp
      unfold Memory.place
      split
      · rename_i had
        refine List.pairwise_cons.mpr ⟨fun e he => ?_, hp⟩
        rcases List.mem_cons.mp he with rfl | he
        · exact had
        · exact had.trans (hlt e he)
      · refine List.pairwise_cons.mpr ⟨fun e he => ?_, ih (fun c hc => hn c (by simp [hc])) hp'⟩
        rcases Memory.mem_place.mp he with rfl | he
        · show d.1 < a
          omega
        · exact hlt e he
  · rcases Memory.mem_place.mp hc with rfl | hc
    · exact ⟨ha, hv⟩
    · exact h.2 c hc

/-- `MemWrite` keeps the canonical form. -/
theorem Memory.wf_write {m : Memory} (a : Addr) (v : Byte) (h : m.wf = true) : (m.write a v).wf = true := by
  unfold Memory.write Memory.writeNat
  split
  · exact Memory.wf_remove _ h
  · rename_i hv
    exact Memory.wf_place (Memory.wf_remove _ h) (by have := a.isLt; simpa [Config.memSize] using this) hv
      fun c hc => (Memory.mem_remove.mp hc).2

/-- `init()` gives the canonical form. -/
@[simp] theorem Memory.wf_init (m : Memory) : m.init.wf = true := rfl

/-- Loading a program image keeps the canonical form. -/
theorem Memory.wf_load {m : Memory} (a : Addr) (bytes : List Byte) (h : m.wf = true) : (m.load a bytes).wf = true := by
  induction bytes generalizing m a with
  | nil => exact h
  | cons b bs ih => exact ih _ (Memory.wf_write _ _ h)

/-- Memory right after reset has the canonical form. -/
theorem State.reset_mem_wf : State.reset.mem.wf = true := rfl

end Sys2Proof.Machine
end

