-- ==== Sys2Proof/Laws/State.lean ====
section
/-! SUPPORT. What each update of the state does to each field: one lemma per field per update, true by definition, so that no
later proof unfolds a record update. -/

namespace Sys2Proof.Machine

variable (s : State)

/-! ### `A <- v` -/

@[simp] theorem setA_a (v : Byte) : (setA v s).a = v := rfl
@[simp] theorem setA_x (v : Byte) : (setA v s).x = s.x := rfl
@[simp] theorem setA_y (v : Byte) : (setA v s).y = s.y := rfl
@[simp] theorem setA_sp (v : Byte) : (setA v s).sp = s.sp := rfl
@[simp] theorem setA_pc (v : Byte) : (setA v s).pc = s.pc := rfl
@[simp] theorem setA_p (v : Byte) : (setA v s).p = s.p := rfl
@[simp] theorem setA_cyc (v : Byte) : (setA v s).cyc = s.cyc := rfl
@[simp] theorem setA_mem (v : Byte) : (setA v s).mem = s.mem := rfl
@[simp] theorem setA_phase (v : Byte) : (setA v s).phase = s.phase := rfl
@[simp] theorem setA_rtsVariant (v : Byte) : (setA v s).rtsVariant = s.rtsVariant := rfl
@[simp] theorem setA_diag (v : Byte) : (setA v s).diag = s.diag := rfl
@[simp] theorem setA_trace (v : Byte) : (setA v s).trace = s.trace := rfl

/-! ### `SP <- v` -/

@[simp] theorem setSp_a (v : Byte) : (setSp v s).a = s.a := rfl
@[simp] theorem setSp_x (v : Byte) : (setSp v s).x = s.x := rfl
@[simp] theorem setSp_y (v : Byte) : (setSp v s).y = s.y := rfl
@[simp] theorem setSp_sp (v : Byte) : (setSp v s).sp = v := rfl
@[simp] theorem setSp_pc (v : Byte) : (setSp v s).pc = s.pc := rfl
@[simp] theorem setSp_p (v : Byte) : (setSp v s).p = s.p := rfl
@[simp] theorem setSp_cyc (v : Byte) : (setSp v s).cyc = s.cyc := rfl
@[simp] theorem setSp_mem (v : Byte) : (setSp v s).mem = s.mem := rfl
@[simp] theorem setSp_phase (v : Byte) : (setSp v s).phase = s.phase := rfl
@[simp] theorem setSp_rtsVariant (v : Byte) : (setSp v s).rtsVariant = s.rtsVariant := rfl
@[simp] theorem setSp_diag (v : Byte) : (setSp v s).diag = s.diag := rfl
@[simp] theorem setSp_trace (v : Byte) : (setSp v s).trace = s.trace := rfl

/-! ### `PC <- v` -/

@[simp] theorem setPc_a (v : Addr) : (setPc v s).a = s.a := rfl
@[simp] theorem setPc_x (v : Addr) : (setPc v s).x = s.x := rfl
@[simp] theorem setPc_y (v : Addr) : (setPc v s).y = s.y := rfl
@[simp] theorem setPc_sp (v : Addr) : (setPc v s).sp = s.sp := rfl
@[simp] theorem setPc_pc (v : Addr) : (setPc v s).pc = v := rfl
@[simp] theorem setPc_p (v : Addr) : (setPc v s).p = s.p := rfl
@[simp] theorem setPc_cyc (v : Addr) : (setPc v s).cyc = s.cyc := rfl
@[simp] theorem setPc_mem (v : Addr) : (setPc v s).mem = s.mem := rfl
@[simp] theorem setPc_phase (v : Addr) : (setPc v s).phase = s.phase := rfl
@[simp] theorem setPc_rtsVariant (v : Addr) : (setPc v s).rtsVariant = s.rtsVariant := rfl
@[simp] theorem setPc_diag (v : Addr) : (setPc v s).diag = s.diag := rfl
@[simp] theorem setPc_trace (v : Addr) : (setPc v s).trace = s.trace := rfl

/-! ### `P <- v` -/

@[simp] theorem setP_a (v : Byte) : (setP v s).a = s.a := rfl
@[simp] theorem setP_x (v : Byte) : (setP v s).x = s.x := rfl
@[simp] theorem setP_y (v : Byte) : (setP v s).y = s.y := rfl
@[simp] theorem setP_sp (v : Byte) : (setP v s).sp = s.sp := rfl
@[simp] theorem setP_pc (v : Byte) : (setP v s).pc = s.pc := rfl
@[simp] theorem setP_p (v : Byte) : (setP v s).p = v := rfl
@[simp] theorem setP_cyc (v : Byte) : (setP v s).cyc = s.cyc := rfl
@[simp] theorem setP_mem (v : Byte) : (setP v s).mem = s.mem := rfl
@[simp] theorem setP_phase (v : Byte) : (setP v s).phase = s.phase := rfl
@[simp] theorem setP_rtsVariant (v : Byte) : (setP v s).rtsVariant = s.rtsVariant := rfl
@[simp] theorem setP_diag (v : Byte) : (setP v s).diag = s.diag := rfl
@[simp] theorem setP_trace (v : Byte) : (setP v s).trace = s.trace := rfl

/-! ### `Tick(n)` -/

@[simp] theorem tick_a (n : Nat) : (tick n s).a = s.a := rfl
@[simp] theorem tick_x (n : Nat) : (tick n s).x = s.x := rfl
@[simp] theorem tick_y (n : Nat) : (tick n s).y = s.y := rfl
@[simp] theorem tick_sp (n : Nat) : (tick n s).sp = s.sp := rfl
@[simp] theorem tick_pc (n : Nat) : (tick n s).pc = s.pc := rfl
@[simp] theorem tick_p (n : Nat) : (tick n s).p = s.p := rfl
@[simp] theorem tick_cyc (n : Nat) : (tick n s).cyc = s.cyc - n := rfl
@[simp] theorem tick_mem (n : Nat) : (tick n s).mem = s.mem := rfl
@[simp] theorem tick_phase (n : Nat) : (tick n s).phase = s.phase := rfl
@[simp] theorem tick_rtsVariant (n : Nat) : (tick n s).rtsVariant = s.rtsVariant := rfl
@[simp] theorem tick_diag (n : Nat) : (tick n s).diag = s.diag := rfl
@[simp] theorem tick_trace (n : Nat) : (tick n s).trace = s.trace := rfl

/-! ### `MemRead(b, 1)` -/

@[simp] theorem memRead_a (b : Addr) : (memRead b s).2.a = s.a := rfl
@[simp] theorem memRead_x (b : Addr) : (memRead b s).2.x = s.x := rfl
@[simp] theorem memRead_y (b : Addr) : (memRead b s).2.y = s.y := rfl
@[simp] theorem memRead_sp (b : Addr) : (memRead b s).2.sp = s.sp := rfl
@[simp] theorem memRead_pc (b : Addr) : (memRead b s).2.pc = s.pc := rfl
@[simp] theorem memRead_p (b : Addr) : (memRead b s).2.p = s.p := rfl
@[simp] theorem memRead_cyc (b : Addr) : (memRead b s).2.cyc = s.cyc := rfl
@[simp] theorem memRead_mem (b : Addr) : (memRead b s).2.mem = s.mem := rfl
@[simp] theorem memRead_phase (b : Addr) : (memRead b s).2.phase = s.phase := rfl
@[simp] theorem memRead_rtsVariant (b : Addr) : (memRead b s).2.rtsVariant = s.rtsVariant := rfl
@[simp] theorem memRead_diag (b : Addr) : (memRead b s).2.diag = s.diag := rfl
@[simp] theorem memRead_trace (b : Addr) : (memRead b s).2.trace = s.trace ++ [.read b (byteAt b s)] := rfl

/-! ### `MemWrite(b, 1, v)` -/

@[simp] theorem memWrite_a (b : Addr) (v : Byte) : (memWrite b v s).a = s.a := rfl
@[simp] theorem memWrite_x (b : Addr) (v : Byte) : (memWrite b v s).x = s.x := rfl
@[simp] theorem memWrite_y (b : Addr) (v : Byte) : (memWrite b v s).y = s.y := rfl
@[simp] theorem memWrite_sp (b : Addr) (v : Byte) : (memWrite b v s).sp = s.sp := rfl
@[simp] theorem memWrite_pc (b : Addr) (v : Byte) : (memWrite b v s).pc = s.pc := rfl
@[simp] theorem memWrite_p (b : Addr) (v : Byte) : (memWrite b v s).p = s.p := rfl
@[simp] theorem memWrite_cyc (b : Addr) (v : Byte) : (memWrite b v s).cyc = s.cyc := rfl
@[simp] theorem memWrite_mem (b : Addr) (v : Byte) : (memWrite b v s).mem = s.mem.write b v := rfl
@[simp] theorem memWrite_phase (b : Addr) (v : Byte) : (memWrite b v s).phase = s.phase := rfl
@[simp] theorem memWrite_rtsVariant (b : Addr) (v : Byte) : (memWrite b v s).rtsVariant = s.rtsVariant := rfl
@[simp] theorem memWrite_diag (b : Addr) (v : Byte) : (memWrite b v s).diag = s.diag := rfl
@[simp] theorem memWrite_trace (b : Addr) (v : Byte) : (memWrite b v s).trace = s.trace ++ [.write b v] := rfl

/-! ### `Diag(op, b)` -/

@[simp] theorem emitDiag_a (op : Byte) (b : Addr) : (emitDiag op b s).a = s.a := rfl
@[simp] theorem emitDiag_x (op : Byte) (b : Addr) : (emitDiag op b s).x = s.x := rfl
@[simp] theorem emitDiag_y (op : Byte) (b : Addr) : (emitDiag op b s).y = s.y := rfl
@[simp] theorem emitDiag_sp (op : Byte) (b : Addr) : (emitDiag op b s).sp = s.sp := rfl
@[simp] theorem emitDiag_pc (op : Byte) (b : Addr) : (emitDiag op b s).pc = s.pc := rfl
@[simp] theorem emitDiag_p (op : Byte) (b : Addr) : (emitDiag op b s).p = s.p := rfl
@[simp] theorem emitDiag_cyc (op : Byte) (b : Addr) : (emitDiag op b s).cyc = s.cyc := rfl
@[simp] theorem emitDiag_mem (op : Byte) (b : Addr) : (emitDiag op b s).mem = s.mem := rfl
@[simp] theorem emitDiag_phase (op : Byte) (b : Addr) : (emitDiag op b s).phase = s.phase := rfl
@[simp] theorem emitDiag_rtsVariant (op : Byte) (b : Addr) : (emitDiag op b s).rtsVariant = s.rtsVariant := rfl
@[simp] theorem emitDiag_diag (op : Byte) (b : Addr) : (emitDiag op b s).diag = s.diag ++ [⟨op, b⟩] := rfl
@[simp] theorem emitDiag_trace (op : Byte) (b : Addr) : (emitDiag op b s).trace = s.trace := rfl

/-! ### the entry to `run(n)` -/

@[simp] theorem enterRun_a (n : Int) : (enterRun n s).a = s.a := rfl
@[simp] theorem enterRun_x (n : Int) : (enterRun n s).x = s.x := rfl
@[simp] theorem enterRun_y (n : Int) : (enterRun n s).y = s.y := rfl
@[simp] theorem enterRun_sp (n : Int) : (enterRun n s).sp = s.sp := rfl
@[simp] theorem enterRun_pc (n : Int) : (enterRun n s).pc = s.pc := rfl
@[simp] theorem enterRun_p (n : Int) : (enterRun n s).p = s.p := rfl
@[simp] theorem enterRun_cyc (n : Int) : (enterRun n s).cyc = n := rfl
@[simp] theorem enterRun_mem (n : Int) : (enterRun n s).mem = s.mem := rfl
@[simp] theorem enterRun_phase (n : Int) : (enterRun n s).phase = .running := rfl
@[simp] theorem enterRun_rtsVariant (n : Int) : (enterRun n s).rtsVariant = s.rtsVariant := rfl
@[simp] theorem enterRun_diag (n : Int) : (enterRun n s).diag = s.diag := rfl
@[simp] theorem enterRun_trace (n : Int) : (enterRun n s).trace = s.trace := rfl

/-! ### `resetToVector(v)` -/

@[simp] theorem resetState_a (v : Addr) : (resetState v s).a = 0x00 := rfl
@[simp] theorem resetState_x (v : Addr) : (resetState v s).x = 0x00 := rfl
@[simp] theorem resetState_y (v : Addr) : (resetState v s).y = 0x00 := rfl
@[simp] theorem resetState_sp (v : Addr) : (resetState v s).sp = 0xFF := rfl
@[simp] theorem resetState_pc (v : Addr) : (resetState v s).pc = v := rfl
@[simp] theorem resetState_p (v : Addr) : (resetState v s).p = 0x00 := rfl
@[simp] theorem resetState_cyc (v : Addr) : (resetState v s).cyc = s.cyc := rfl
@[simp] theorem resetState_mem (v : Addr) : (resetState v s).mem = [] := rfl
@[simp] theorem resetState_phase (v : Addr) : (resetState v s).phase = .idle := rfl
@[simp] theorem resetState_rtsVariant (v : Addr) : (resetState v s).rtsVariant = s.rtsVariant := rfl
@[simp] theorem resetState_diag (v : Addr) : (resetState v s).diag = s.diag := rfl
@[simp] theorem resetState_trace (v : Addr) : (resetState v s).trace = s.trace := rfl

/-! ### Values -/

@[simp] theorem memRead_val (b : Addr) : (memRead b s).1 = byteAt b s := rfl

@[simp] theorem byteAt_memRead (b c : Addr) : byteAt b (memRead c s).2 = byteAt b s := rfl

end Sys2Proof.Machine
end

