-- ==== Sys2Proof/Laws/Ops.lean ====
section
/-! SUPPORT. For each shared operation, once, everything it does: its result and the state it leaves, written over the state it
was given. The proofs about instructions cite these and unfold no operation. -/

namespace Sys2Proof.Machine

variable (s : State)

/-! ### Byte order -/

theorem wordOf_getLsbD (hi lo : Byte) (i : Nat) :
    (wordOf hi lo).getLsbD i = if i < 8 then lo.getLsbD i else hi.getLsbD (i - 8) :=
  BitVec.getLsbD_append

@[simp] theorem hiByte_wordOf (hi lo : Byte) : hiByte (wordOf hi lo) = hi := by
  apply BitVec.eq_of_getLsbD_eq
  intro i hi8
  have h : ¬ 8 + i < 8 := by omega
  simp only [hiByte, BitVec.getLsbD_extractLsb', wordOf_getLsbD, hi8, h, decide_true, Bool.true_and, if_false,
    Nat.add_sub_cancel_left]

@[simp] theorem loByte_wordOf (hi lo : Byte) : loByte (wordOf hi lo) = lo := by
  apply BitVec.eq_of_getLsbD_eq
  intro i hi8
  simp only [loByte, BitVec.getLsbD_extractLsb', wordOf_getLsbD, hi8, decide_true, Bool.true_and, if_true, Nat.zero_add]

@[simp] theorem wordOf_hiByte_loByte (v : Addr) : wordOf (hiByte v) (loByte v) = v := by
  apply BitVec.eq_of_getLsbD_eq
  intro i hi16
  simp only [hiByte, loByte, wordOf_getLsbD, BitVec.getLsbD_extractLsb']
  by_cases h : i < 8
  · simp [h]
  · have h8 : i - 8 < 8 := by omega
    have hi : 8 + (i - 8) = i := by omega
    simp [h, h8, hi]

/-! ### Fetching and reading -/

theorem fetchByte_eq : fetchByte s = (byteAt s.pc s,
    { s with pc := s.pc + 1, cyc := s.cyc - 1, trace := s.trace ++ [.read s.pc (byteAt s.pc s)] }) := rfl

theorem fetchWord_eq : fetchWord s = (wordOf (byteAt (s.pc + 1) s) (byteAt s.pc s),
    { s with pc := s.pc + 2, cyc := s.cyc - 2,
             trace := s.trace ++ [.read s.pc (byteAt s.pc s), .read (s.pc + 1) (byteAt (s.pc + 1) s)] }) := by
  simp [fetchWord, memRead, tick, setPc, byteAt]

theorem readZp_eq (z : Byte) : readZp z s = (byteAt (zext16 z) s,
    { s with cyc := s.cyc - 1, trace := s.trace ++ [.read (zext16 z) (byteAt (zext16 z) s)] }) := rfl

theorem stackRead_eq : stackRead s = (byteAt (stackAddr s.sp) s,
    { s with cyc := s.cyc - 1, trace := s.trace ++ [.read (stackAddr s.sp) (byteAt (stackAddr s.sp) s)] }) := rfl

/-! ### The stack -/

theorem stackAddr_toNat (sp : Byte) : (stackAddr sp).toNat = 0x0100 + sp.toNat := by
  revert sp
  decide

theorem stackAddr_inj {sp sp' : Byte} (h : stackAddr sp = stackAddr sp') : sp = sp' := by
  have := congrArg BitVec.toNat h
  rw [stackAddr_toNat, stackAddr_toNat] at this
  exact BitVec.eq_of_toNat_eq (by omega)

theorem pushWord_eq (v : Addr) : pushWord v s =
    { s with mem := (s.mem.write (stackAddr s.sp) (hiByte v)).write (stackAddr (s.sp - 1)) (loByte v),
             sp := s.sp - 2,
             trace := s.trace ++ [.write (stackAddr s.sp) (hiByte v), .write (stackAddr (s.sp - 1)) (loByte v)] } := by
  have h : s.sp - 1#8 - 1#8 = s.sp - 2#8 := by bv_omega
  simp [pushWord, pushByte, memWrite, setSp, h]

theorem popWordFaithful_eq : popWordFaithful s =
    (wordOf (byteAt (stackAddr s.sp) s) (byteAt (stackAddr s.sp) s),
     { s with cyc := s.cyc - 2,
              trace := s.trace ++ [.read (stackAddr s.sp) (byteAt (stackAddr s.sp) s),
                                   .read (stackAddr s.sp) (byteAt (stackAddr s.sp) s)] }) := by
  have h : s.cyc - 1 - 1 = s.cyc - 2 := by omega
  simp [popWordFaithful, stackRead_eq, byteAt, h]

theorem popWordCorrected_eq : popWordCorrected s =
    (wordOf (byteAt (stackAddr (s.sp + 2)) s) (byteAt (stackAddr (s.sp + 1)) s),
     { s with sp := s.sp + 2, cyc := s.cyc - 2,
              trace := s.trace ++ [.read (stackAddr (s.sp + 1)) (byteAt (stackAddr (s.sp + 1)) s),
                                   .read (stackAddr (s.sp + 2)) (byteAt (stackAddr (s.sp + 2)) s)] }) := by
  have h : s.cyc - 1 - 1 = s.cyc - 2 := by omega
  have h' : s.sp + 1#8 + 1#8 = s.sp + 2#8 := by bv_omega
  simp [popWordCorrected, stackRead_eq, setSp, byteAt, h, h']

theorem popWord_of_faithful (h : s.rtsVariant = .faithful) : popWord s = popWordFaithful s := by
  simp [popWord, h]

theorem popWord_of_corrected (h : s.rtsVariant = .corrected) : popWord s = popWordCorrected s := by
  simp [popWord, h]

/-! ### Flags -/

theorem setFlagIf_eq (c : Bool) (f : Flag) : setFlagIf c f s = { s with p := if c then s.p ||| f.mask else s.p } := by
  cases c <;> rfl

theorem updateZN_eq (v : Byte) : updateZN v s =
    { s with p := if v.getLsbD 7 then (if v == 0x00 then s.p ||| 0x02 else s.p) ||| 0x80
                  else if v == 0x00 then s.p ||| 0x02 else s.p } := by
  simp only [updateZN, setFlagIf_eq]
  rfl

theorem loadA_eq (v : Byte) : loadA v s = { updateZN v s with a := v } := by
  simp only [loadA, updateZN_eq, setA]

/-! ### Every operation keeps memory's canonical form -/

theorem memWrite_wf {s : State} (a : Addr) (v : Byte) (h : s.mem.wf = true) : (memWrite a v s).mem.wf = true :=
  Memory.wf_write a v h

theorem pushWord_wf {s : State} (v : Addr) (h : s.mem.wf = true) : (pushWord v s).mem.wf = true := by
  rw [pushWord_eq]
  exact Memory.wf_write _ _ (Memory.wf_write _ _ h)

end Sys2Proof.Machine
end

