-- ==== Sys2Proof/Laws/PerInstr.lean ====
section
/-! SUPPORT. Statements made once per instruction (LAWS.json): the instruction's encoding has the length its format says, and
its row of the opcode table is the one its opcode byte selects (spec/30_encoding.md R61, R62, R66, R69). -/

namespace Sys2Proof.Laws.TableRow

/-- A well-formed instruction's encoding starts with an opcode byte that selects the row with its mnemonic, length and cycle
cost, and has that length. -/
def Statement (i : Instr) : Prop :=
  i.WellFormed → (encode i).length = i.length ∧
    ((encode i).head?.bind rowOf).map (fun r => (r.mnemonic, r.length, r.cycles)) =
      some (i.mnemonic, i.length, i.cycles)

theorem jsr (target : Addr) : Statement (.jsr target) := fun _ => ⟨rfl, rfl⟩

theorem rts : Statement .rts := fun _ => ⟨rfl, rfl⟩

theorem ldaZp (z : Byte) : Statement (.ldaZp z) := fun _ => ⟨rfl, rfl⟩

theorem ldaImm (imm : Byte) : Statement (.ldaImm imm) := fun _ => ⟨rfl, rfl⟩

theorem unk (op : Byte) : Statement (.unk op) := by
  unfold Statement
  revert op
  decide

end Sys2Proof.Laws.TableRow
end

