-- ==== Sys2Proof/Laws/Step.lean ====
section
/-! SUPPORT. What one step can do, said once (spec/40_core_loop.md R90, R91), and how the loop unfolds. -/

namespace Sys2Proof.Machine

variable {s t : State}

theorem turn_executing (h : s.Executing) : turn s = exec (instrAt s) s := by
  simp [turn, h.1, h.2]

/-- Every next state of a step is one of three: the idle state itself, the end of a run, or the state after the instruction
at `PC`. -/
theorem step_cases (h : step s = .next t) :
    (s.phase = .idle ∧ t = s) ∨
    (s.phase = .running ∧ s.cyc ≤ 0 ∧ t = { s with phase := .idle }) ∨
    (s.Executing ∧ exec (instrAt s) s = .next t) := by
  unfold step turn at h
  split at h
  · cases h
  · rename_i hp
    cases h
    exact .inl ⟨hp, rfl⟩
  · rename_i hp
    split at h
    · rename_i hc
      exact .inr (.inr ⟨⟨hp, hc⟩, h⟩)
    · rename_i hc
      cases h
      exact .inr (.inl ⟨hp, by omega, rfl⟩)

theorem loop_succ (n : Nat) (h : turn s = .next t) : loop (n + 1) s = loop n t := by
  simp [loop, h]

theorem loop_idle (n : Nat) (h : s.phase = .idle) : loop n s = .next s := by
  induction n with
  | zero => rfl
  | succ n ih => rw [loop_succ n (t := s) (by simp [turn, h]), ih]

end Sys2Proof.Machine
end

