-- ==== Sys2Proof/Tests/Slice0.lean ====
section
/-! SUPPORT. The model's own tests, each a named theorem about one step on a small state, with results from spec/95_test_vectors.md
or from the encoding tables; and for every statement with hypotheses a witness that they can all be met. -/

namespace Sys2Proof.Machine

/-! ### Well-formedness -/

theorem test_wf_refuses_unk_jsr : ¬ (Instr.unk 0x20).WellFormed := by decide
theorem test_wf_refuses_unk_rts : ¬ (Instr.unk 0x60).WellFormed := by decide
theorem test_wf_refuses_unk_ldaZp : ¬ (Instr.unk 0xA5).WellFormed := by decide
theorem test_wf_refuses_unk_ldaImm : (Instr.unk 0xA9).illFormed = some (.assignedOpcode 0xA9) := by decide
theorem test_wf_accepts_unk : (Instr.unk 0xEA).WellFormed := by decide

/-! ### Decoding: bytes written out bit by bit from 30_encoding.md R61 and R66 -/

theorem test_decode_jsr : decode [0b00100000, 0b00110100, 0b00010010] = .ok (.jsr 0x1234, []) := rfl
theorem test_decode_rts : decode [0b01100000] = .ok (.rts, []) := rfl
theorem test_decode_ldaZp : decode [0b10100101, 0b11111110] = .ok (.ldaZp 0xFE, []) := rfl
theorem test_decode_ldaImm : decode [0b10101001, 0b10000001, 0x60] = .ok (.ldaImm 0x81, [0x60]) := rfl
theorem test_decode_unk : decode [0b10101101, 0x34, 0x12] = .ok (.unk 0xAD, [0x34, 0x12]) := rfl
theorem test_decode_truncated : decode [0x20, 0x34] = .error (.truncated 3) := rfl
theorem test_decode_empty : decode [] = .error .noBytes := rfl

/-- Exactly four byte values do not produce an event (95_test_vectors.md V-U). -/
theorem test_decode_four_assigned :
    ((List.range 256).filter fun b => decodeOp (BitVec.ofNat 8 b) 0 0 ≠ .unk (BitVec.ofNat 8 b)) =
      [0x20, 0x60, 0xA5, 0xA9] := by decide +kernel

theorem test_table_word_jsr : decodeTableWord 24 0x123420 = some (.jsr 0x1234) := by decide
theorem test_table_word_opcode_only : decodeTableWord 8 0xA5 = some (.ldaZp 0x00) := by decide

/-! ### One step of each instruction (95_test_vectors.md) -/

/-- A running machine with some bytes in memory. -/
def testState (pc : Addr) (sp a p : Byte) (cyc : Int) (mem : List (Addr × Byte)) : State :=
  { State.reset with
    pc := pc, sp := sp, a := a, p := p, cyc := cyc, phase := .running
    mem := mem.foldl (fun m c => m.write c.1 c.2) [] }

/-- The outcome is a next state with this property. -/
def nextIs (o : Host.Outcome State Fault Refusal) (f : State → Bool) : Bool :=
  match o with
  | .next t => f t
  | .fault _ => false
  | .refused _ => false

/-- V-L8: the instruction straddles the wrap; Z is set. -/
theorem test_ldaImm_wraps :
    nextIs (step (testState 0xFFFF 0xFF 0x11 0x00 2 [(0xFFFF, 0xA9)]))
      (fun t => t.pc = 0x0001 ∧ t.a = 0x00 ∧ t.p = 0x02 ∧ t.cyc = 0) := by decide

/-- V-L7: Z kept, N added; overshoot. -/
theorem test_ldaImm_sticky :
    nextIs (step (testState 0x0200 0xFF 0x00 0x02 1 [(0x0200, 0xA9), (0x0201, 0x80)]))
      (fun t => t.a = 0x80 ∧ t.p = 0x82 ∧ t.cyc = -1) := by decide

/-- V-L11: the address is 0x00FF, not 0x01FF. -/
theorem test_ldaZp_zero_page :
    nextIs (step (testState 0x0300 0xFF 0x00 0x00 3
        [(0x0300, 0xA5), (0x0301, 0xFF), (0x00FF, 0x7F), (0x01FF, 0x99)]))
      (fun t => t.pc = 0x0302 ∧ t.a = 0x7F ∧ t.p = 0x00 ∧ t.cyc = 0) := by decide

/-- V-L9: the accesses in order. -/
theorem test_ldaZp_trace :
    nextIs (step (testState 0x0300 0xFF 0x00 0x00 3 [(0x0300, 0xA5), (0x0301, 0x10), (0x0010, 0x80)]))
      (fun t => t.p = 0x80 ∧ t.trace = [.read 0x0300 0xA5, .read 0x0301 0x10, .read 0x0010 0x80]) := by decide

/-- V-J8: a `JSR` lying in the stack page; the target is read before the push. -/
theorem test_jsr_in_stack_page :
    nextIs (step (testState 0x01FD 0xFF 0x00 0x00 4 [(0x01FD, 0x20), (0x01FE, 0x00), (0x01FF, 0x03)]))
      (fun t => t.pc = 0x0300 ∧ t.sp = 0xFD ∧ t.cyc = 0 ∧
        t.mem = [(0x01FD, 0x20), (0x01FE, 0xFF), (0x01FF, 0x01)]) := by decide

/-- V-J7: the push wraps inside the stack page; overshoot by 3. -/
theorem test_jsr_stack_wrap :
    nextIs (step (testState 0x0200 0x00 0x00 0x00 1 [(0x0200, 0x20), (0x0201, 0x34), (0x0202, 0x12)]))
      (fun t => t.pc = 0x1234 ∧ t.sp = 0xFE ∧ t.cyc = -3 ∧ byteAt 0x0100 t = 0x02 ∧ byteAt 0x01FF t = 0x02) := by decide

/-- V-S1, faithful. -/
theorem test_rts_faithful :
    nextIs (step (testState 0x0600 0xFD 0x00 0x00 3
        [(0x0600, 0x60), (0x01FD, 0x12), (0x01FE, 0x34), (0x01FF, 0x56)]))
      (fun t => t.pc = 0x1213 ∧ t.sp = 0xFD ∧ t.cyc = 0) := by decide

/-- V-S3, corrected: the pop wraps inside the stack page. -/
theorem test_rts_corrected :
    nextIs (step { testState 0x0600 0xFE 0x00 0x00 3
        [(0x0600, 0x60), (0x01FE, 0x60), (0x01FF, 0x11), (0x0100, 0x22)] with rtsVariant := .corrected })
      (fun t => t.pc = 0x2212 ∧ t.sp = 0x00 ∧ t.cyc = 0) := by decide

/-- V-U3: the event, and the wrap of `PC`. -/
theorem test_unk_event :
    nextIs (step (testState 0xFFFF 0xFF 0x5A 0x82 2 [(0xFFFF, 0xFF)]))
      (fun t => t.pc = 0x0000 ∧ t.cyc = 1 ∧ t.a = 0x5A ∧ t.p = 0x82 ∧ t.diag = [⟨0xFF, 0xFFFF⟩]) := by decide

/-- V-U1: the byte 0x00 of unseeded memory is an unknown opcode. -/
theorem test_unk_unseeded :
    nextIs (step (testState 0x0001 0xFF 0x5A 0x82 1 [])) (fun t => t.pc = 0x0002 ∧ t.diag = [⟨0x00, 0x0001⟩]) := by decide

/-! ### The run loop, the host and reset -/

/-- V-R2: a negative budget executes nothing and stays in `CYC`. -/
theorem test_run_negative : nextIs (run (-5) State.reset) (fun t => t.pc = 0xFFFC ∧ t.cyc = -5 ∧ t.phase = .idle) := by decide

/-- V-R9: reset erases the image. -/
theorem test_reset_erases :
    nextIs (resetDefault { State.reset with mem := [(0x1234, 0x77)] }) (fun t => byteAt 0x1234 t = 0x00) := by decide

/-- Writing 0x00 keeps memory canonical: the entry goes. -/
theorem test_write_zero_removes : Memory.write [(0x10, 0x80), (0x11, 0x01)] 0x10 0x00 = [(0x11, 0x01)] := by decide

/-- The first step after reset runs the instruction that `withFetchWord` places. -/
theorem test_first_step_runs_placed_instruction :
    nextIs (step (State.reset.withFetchWord 16 0x80A9)) (fun t => t.pc = 0xFFFE ∧ t.a = 0x80 ∧ t.p = 0x80) := by decide

/-! ### Witnesses: the hypotheses of each statement can be met -/

/-- A running state with 0xEA at `PC`, used by the witnesses. -/
def witnessState : State := testState 0xFFFF 0x00 0x5A 0x82 2 [(0xFFFF, 0xEA), (0x0100, 0x12)]

theorem witness_DecodeOfEncodeGivesTheInstruction : (Instr.unk 0xFF).WellFormed := by decide
theorem witness_EncodeOfDecodeGivesTheBytes : decode [0x20, 0x34, 0x12, 0x60] = .ok (.jsr 0x1234, [0x60]) := rfl
theorem witness_OpcodeByteAloneGivesTheLength :
    decode [0xA9, 0x01] = .ok (.ldaImm 0x01, []) ∧ decode [0xA5, 0xFF, 0x00] = .ok (.ldaZp 0xFF, [0x00]) ∧
    decode [0x20, 0xFF, 0xFF] = .ok (.jsr 0xFFFF, []) ∧ decode [0xAA] = .ok (.unk 0xAA, []) := ⟨rfl, rfl, rfl, rfl⟩
theorem witness_CanonicalMemoriesReadingAlikeAreEqual :
    Memory.wf [(0, 0x01), (65535, 0xFF)] = true ∧
    ∀ a : Addr, Memory.read [(0, 0x01), (65535, 0xFF)] a = Memory.read [(0, 0x01), (65535, 0xFF)] a :=
  ⟨by decide, fun _ => rfl⟩
theorem witness_FetchByteAdvancesByOne : witnessState.pc = 0xFFFF := rfl
theorem witness_FetchWordIsLittleEndian : witnessState.pc = 0xFFFF := rfl
theorem witness_PushWordWritesHighThenLow :
    witnessState.sp = 0x00 ∧ (0x0101 : Addr) ≠ stackAddr witnessState.sp ∧
    (0x0101 : Addr) ≠ stackAddr (witnessState.sp - 1) := by decide
theorem witness_FlagOperationsAreBitAlgebra : ∃ t, exec (.ldaImm 0x80) witnessState = .next t := ⟨_, rfl⟩
theorem witness_UpdateZnSetsAndNeverClears :
    (0x00 : Byte) = 0x00 ∧ (0x01 ≤ (0x01 : Byte).toNat ∧ (0x01 : Byte).toNat ≤ 0x7F) ∧
    (0x01 ≤ (0x7F : Byte).toNat ∧ (0x7F : Byte).toNat ≤ 0x7F) ∧ 0x80 ≤ (0x80 : Byte).toNat ∧ 0x80 ≤ (0xFF : Byte).toNat := by
  decide
theorem witness_JsrPushesReturnAddressAndJumps : ∃ t, exec (.jsr 0xFFFF) witnessState = .next t := ⟨_, rfl⟩
theorem witness_FaithfulRtsJumpsThroughOneStackByte :
    witnessState.rtsVariant = .faithful ∧ ∃ t, exec .rts witnessState = .next t := ⟨rfl, _, rfl⟩
theorem witness_CorrectedRtsInvertsThePush :
    State.rtsVariant { witnessState with rtsVariant := .corrected } = .corrected := rfl
theorem witness_FaithfulRtsAfterJsrDoesNotReturn : witnessState.rtsVariant = .faithful := rfl
theorem witness_UnknownOpcodeIsReportedAndPassedOver :
    (0x00 : Byte) ∉ [(0x20 : Byte), 0x60, 0xA5, 0xA9] ∧ (0xFF : Byte) ∉ [(0x20 : Byte), 0x60, 0xA5, 0xA9] := by decide
theorem witness_InstructionCostsAreFixed :
    (∃ t, exec (.jsr 0) witnessState = .next t) ∧ (∃ t, exec .rts witnessState = .next t) ∧
    (∃ t, exec (.ldaZp 0xFF) witnessState = .next t) ∧ (∃ t, exec (.ldaImm 0) witnessState = .next t) ∧
    (∃ t, exec (.unk 0xEA) witnessState = .next t) := ⟨⟨_, rfl⟩, ⟨_, rfl⟩, ⟨_, rfl⟩, ⟨_, rfl⟩, ⟨_, rfl⟩⟩
theorem witness_LoadsLeaveTheRestUnchanged :
    ((∃ z, Instr.ldaZp 0xFF = .ldaZp z) ∧ ∃ t, exec (.ldaZp 0xFF) witnessState = .next t) ∧
    (∃ imm, Instr.ldaImm 0x80 = .ldaImm imm) ∧ ∃ t, exec (.ldaImm 0x80) witnessState = .next t :=
  ⟨⟨⟨_, rfl⟩, _, rfl⟩, ⟨_, rfl⟩, _, rfl⟩
theorem witness_JsrLeavesTheRestUnchanged :
    (∃ t, exec (.jsr 0x1234) witnessState = .next t) ∧ (0x00FF : Addr) ≠ stackAddr witnessState.sp ∧
    (0x00FF : Addr) ≠ stackAddr (witnessState.sp - 1) := ⟨⟨_, rfl⟩, by decide, by decide⟩
theorem witness_RtsLeavesTheRestUnchanged :
    (witnessState.rtsVariant = .faithful ∧ ∃ t, exec .rts witnessState = .next t) ∧
    ∃ t, exec .rts { witnessState with rtsVariant := .corrected } = .next t := ⟨⟨rfl, _, rfl⟩, _, rfl⟩
theorem witness_UnknownOpcodeLeavesTheRestUnchanged : ∃ t, exec (.unk 0xEA) witnessState = .next t := ⟨_, rfl⟩
theorem witness_OnlyJsrStoresAndOnlyInTheStackPage :
    (∃ t, exec (.jsr 0x1234) witnessState = .next t) ∧ ¬ InStackPage 0x00FF ∧ ¬ InStackPage 0x0200 ∧
    ∀ target, Instr.rts ≠ .jsr target := ⟨⟨_, rfl⟩, by decide, by decide, fun _ h => by cases h⟩
theorem witness_StackPointerMovesOnlyInSubroutineInstructions : ∃ t, exec (.jsr 0x1234) witnessState = .next t := ⟨_, rfl⟩
theorem witness_OnlyUnknownOpcodesAreReported : ∃ t, exec (.unk 0xEA) witnessState = .next t := ⟨_, rfl⟩
theorem witness_NoInstructionReadsTheCycleCounter : ∃ t, exec (.ldaZp 0x10) witnessState = .next t := ⟨_, rfl⟩
/-- `SP` is 0x00, so the two bytes lie at the two ends of the stack page. -/
theorem witness_FetchSeesThePushedByte :
    ∃ t, exec (.jsr (stackAddr witnessState.sp)) witnessState = .next t ∧
      ({ t with pc := 0x0100 } : State).mem = t.mem ∧ 0x0100 = stackAddr witnessState.sp ∧
      ({ t with pc := 0x01FF } : State).mem = t.mem ∧ 0x01FF = stackAddr (witnessState.sp - 1) :=
  ⟨_, rfl, rfl, by decide, rfl, by decide⟩
theorem witness_StepRunsTheDecodedInstruction :
    witnessState.Executing ∧ decode (instrBytes witnessState) = .ok (.unk 0xEA, [0x00, 0x00]) := ⟨by decide, rfl⟩
theorem witness_StepOutsideARunExecutesNothing :
    (State.phase { witnessState with cyc := 0 } = .running ∧ State.cyc { witnessState with cyc := 0 } ≤ 0) ∧
    State.reset.phase = .idle ∧ State.phase { State.reset with phase := .beforeReset } = .beforeReset := by decide
theorem witness_StepRefinesTheSpecsStep : witnessState.Executing := by decide
theorem witness_BytesAtPcSelectTheInstruction :
    (State.reset.withFetchWord 8 0xA9).Executing ∧
    byteAt 0xFFFC (State.reset.withFetchWord 8 0xA9) = 0xA9 ∧ byteAt 0xFFFC (State.reset.withFetchWord 8 0xA5) = 0xA5 ∧
    byteAt 0xFFFC (State.reset.withFetchWord 8 0x20) = 0x20 ∧ byteAt 0xFFFC (State.reset.withFetchWord 8 0x60) = 0x60 ∧
    byteAt 0xFFFC (State.reset.withFetchWord 8 0x00) ∉ [(0x20 : Byte), 0x60, 0xA5, 0xA9] := by decide
theorem witness_StepAlwaysAnswersAfterReset : State.reset.phase ≠ .beforeReset ∧ witnessState.phase ≠ .beforeReset := by
  decide
theorem witness_StepKeepsTheInvariant : witnessState.Inv ∧ ∃ t, step witnessState = .next t :=
  ⟨⟨by decide, by decide, by decide, by decide⟩, _, rfl⟩
theorem witness_HostMovesKeepTheInvariant :
    (∃ t, hostMove (.write 0xFFFF 0x01) State.reset = .next t) ∧ (∃ t, hostMove (.callRun 7) State.reset = .next t) ∧
    ∃ t, resetToVector 0x0200 { witnessState with phase := .beforeReset, x := 0x55 } = .next t :=
  ⟨⟨_, rfl⟩, ⟨_, rfl⟩, _, rfl⟩
theorem witness_EveryMomentAfterResetIsSafe : ∃ s, Reachable s ∧ s.phase ≠ .beforeReset :=
  ⟨resetState 0xFFFC { witnessState with phase := .beforeReset },
    .host (.resetToVector 0xFFFC) _ _ (.powerOn { witnessState with phase := .beforeReset } rfl) rfl, by decide⟩
theorem witness_FlagsAreStickyUntilReset :
    (∃ t, step witnessState = .next t) ∧ (∃ t, hostMove (.write 0 1) State.reset = .next t) ∧
    ∀ v, HostMove.write 0 1 ≠ .resetToVector v := ⟨⟨_, rfl⟩, ⟨_, rfl⟩, fun _ h => by cases h⟩
theorem witness_UnreadRegistersDoNotInfluenceAStep :
    SameControl witnessState { witnessState with a := 0xFF, x := 0x01, y := 0x02, p := 0x00, diag := [] } ∧
    ∃ t, step witnessState = .next t := ⟨⟨rfl, rfl, rfl, rfl, rfl, rfl⟩, _, rfl⟩
theorem witness_ParameterAndIndexRegistersAreConstant :
    (∃ t, step witnessState = .next t) ∧ ∃ t, hostMove (.resetToVector 0) State.reset = .next t := ⟨⟨_, rfl⟩, _, rfl⟩
theorem witness_RunReturnsWithBoundedOvershoot : State.reset.phase = .idle ∧ (1 : Int) ≤ 1 := by decide
/-- Budgets of both clauses: any (here 1), and zero or less. -/
theorem witness_RunWithoutBudgetExecutesNothing :
    State.reset.phase = .idle ∧ (∃ t, callRun 1 State.reset = .next t) ∧ (0 : Int) ≤ 0 ∧ (-5 : Int) ≤ 0 :=
  ⟨rfl, ⟨_, rfl⟩, by decide, by decide⟩
theorem witness_RunExecutesBetweenQuarterBudgetAndBudget :
    (witnessState.Executing ∧ ∃ t, step witnessState = .next t) ∧ State.reset.phase = .idle ∧ 1 ≤ 1 :=
  ⟨⟨by decide, _, rfl⟩, rfl, Nat.le_refl 1⟩
theorem witness_RunOfOneExecutesOneInstruction : State.reset.phase = .idle := rfl
theorem witness_RunsSplitExactlyAtZero :
    State.reset.phase = .idle ∧ ∃ t, run (1 : Nat) State.reset = .next t ∧ t.cyc = 0 := ⟨rfl, _, rfl, by decide⟩
theorem witness_SplitRunsExecuteAtLeastAsMany :
    State.reset.phase = .idle ∧ 1 ≤ 1 ∧ 1 ≤ 2 ∧ ∃ t, run (1 : Nat) State.reset = .next t :=
  ⟨rfl, by decide, by decide, _, rfl⟩
theorem witness_ResetWritesTheResetValues : State.reset.phase ≠ .running ∧ witnessState.phase = .running := by decide
theorem witness_ResetIsIdempotent :
    (∃ t, resetDefault State.reset = .next t) ∧ ∃ t, resetToVector 0x0200 State.reset = .next t := ⟨⟨_, rfl⟩, _, rfl⟩
theorem witness_HostActsOnlyWhileIdle :
    witnessState.phase = .running ∧ State.phase { State.reset with phase := .beforeReset } = .beforeReset ∧
    ∀ v, HostMove.callRun 7 ≠ .resetToVector v := ⟨rfl, rfl, fun _ h => by cases h⟩
theorem witness_HostReadsAndWritesMemoryWhileIdle : State.reset.phase = .idle := rfl
theorem witness_HostObservesTheRegistersWhileIdle : State.reset.phase = .idle := rfl

end Sys2Proof.Machine
end

