-- ==== Sys2Proof/Proofs/ResetState.lean ====
section
/-! SUPPORT. The values of the state after reset (spec/10_state.md R25). -/

namespace Sys2Proof.Machine

/-- An address that memory does not list reads 0x00 (spec/10_state.md R19); here none is listed. -/
theorem byteAt_of_mem_eq_nil {s : State} (h : s.mem = []) (a : Addr) : byteAt a s = 0x00 := by
  rw [byteAt, h, Memory.read, Memory.readNat_nil]

@[simp] theorem byteAt_reset (a : Addr) : byteAt a State.reset = 0x00 := byteAt_of_mem_eq_nil rfl a

/-- Settles O56: each register and the parameter by their definition, memory by its having no listed byte. -/
theorem resetStateHoldsTheSpecsValues : Obligations.ResetStateHoldsTheSpecsValues :=
  ⟨rfl, rfl, rfl, rfl, rfl, rfl, rfl, rfl, byteAt_reset⟩

end Sys2Proof.Machine
end

/-! SUPPORT. The whole state after each instruction, said once; the proofs about instructions go through `exec_next_iff`. -/

namespace Sys2Proof.Machine

variable {i : Instr} {s t : State}

/-- The state after an instruction (spec/41_load_accumulator.md R101, R102; 42_subroutine.md R110 to R112; 40_core_loop.md R92),
field by field over the state before it. `exec_eq` ties it to `exec`. -/
def afterInstr (i : Instr) (s : State) : State :=
  match i with
  | .jsr target =>
    { s with
      mem := (s.mem.write (stackAddr s.sp) (hiByte (s.pc + 2))).write (stackAddr (s.sp - 1)) (loByte (s.pc + 2))
      sp := s.sp - 2
      pc := target
      cyc := s.cyc - 4
      trace := s.trace ++ [.read s.pc (byteAt s.pc s), .read (s.pc + 1) (byteAt (s.pc + 1) s),
        .read (s.pc + 2) (byteAt (s.pc + 2) s), .write (stackAddr s.sp) (hiByte (s.pc + 2)),
        .write (stackAddr (s.sp - 1)) (loByte (s.pc + 2))] }
  | .rts =>
    { s with
      sp := (popWord s).2.sp
      pc := (popWord s).1 + 1
      cyc := s.cyc - 3
      trace := (popWord (consumeOpcode s)).2.trace }
  | .ldaZp z =>
    { s with
      a := byteAt (zext16 z) s
      p := (updateZN (byteAt (zext16 z) s) s).p
      pc := s.pc + 2
      cyc := s.cyc - 3
      trace := s.trace ++ [.read s.pc (byteAt s.pc s), .read (s.pc + 1) (byteAt (s.pc + 1) s),
        .read (zext16 z) (byteAt (zext16 z) s)] }
  | .ldaImm imm =>
    { s with
      a := imm
      p := (updateZN imm s).p
      pc := s.pc + 2
      cyc := s.cyc - 2
      trace := s.trace ++ [.read s.pc (byteAt s.pc s), .read (s.pc + 1) (byteAt (s.pc + 1) s)] }
  | .unk op =>
    { s with
      pc := s.pc + 1
      cyc := s.cyc - 1
      diag := s.diag ++ [⟨op, s.pc⟩]
      trace := s.trace ++ [.read s.pc (byteAt s.pc s)] }

/-- Two fetches after one another: the two bytes from `PC` up, `PC` two further, two cycles. -/
theorem consumeOperandByte_consumeOpcode (s : State) : consumeOperandByte (consumeOpcode s) =
    { s with
      pc := s.pc + 2
      cyc := s.cyc - 2
      trace := s.trace ++ [.read s.pc (byteAt s.pc s), .read (s.pc + 1) (byteAt (s.pc + 1) s)] } := by
  simp [consumeOperandByte, consumeOpcode, fetchByte_eq, byteAt, BitVec.add_assoc, Int.sub_sub]

theorem exec_jsr_eq (target : Addr) (s : State) : exec (.jsr target) s = .next (afterInstr (.jsr target) s) := by
  have hpc : s.pc + 3#16 - 1#16 = s.pc + 2#16 := by bv_omega
  simp [exec, execJsr, consumeOperandWord, consumeOpcode, fetchByte_eq, fetchWord_eq, pushWord_eq, setPc, tick, afterInstr,
    byteAt, hpc, BitVec.add_assoc, Int.sub_sub]

theorem exec_rts_eq (s : State) : exec .rts s = .next (afterInstr .rts s) := by
  cases hv : s.rtsVariant with
  | faithful =>
    simp [exec, execRts, consumeOpcode, fetchByte_eq, popWord_of_faithful, popWordFaithful_eq, hv, setPc, afterInstr, byteAt,
      Int.sub_sub]
  | corrected =>
    simp [exec, execRts, consumeOpcode, fetchByte_eq, popWord_of_corrected, popWordCorrected_eq, hv, setPc, afterInstr, byteAt,
      Int.sub_sub]

theorem exec_ldaZp_eq (z : Byte) (s : State) : exec (.ldaZp z) s = .next (afterInstr (.ldaZp z) s) := by
  simp [exec, execLdaZp, consumeOperandByte_consumeOpcode, readZp_eq, loadA_eq, updateZN_eq, afterInstr, byteAt, Int.sub_sub]

theorem exec_ldaImm_eq (imm : Byte) (s : State) : exec (.ldaImm imm) s = .next (afterInstr (.ldaImm imm) s) := by
  simp [exec, execLdaImm, consumeOperandByte_consumeOpcode, loadA_eq, updateZN_eq, afterInstr]

theorem exec_unk_eq (op : Byte) (s : State) : exec (.unk op) s = .next (afterInstr (.unk op) s) := by
  simp [exec, execUnk, consumeOpcode, fetchByte_eq, emitDiag, afterInstr]

/-- What an instruction does, in every state. -/
theorem exec_eq (i : Instr) (s : State) : exec i s = .next (afterInstr i s) := by
  cases i with
  | jsr target => exact exec_jsr_eq target s
  | rts => exact exec_rts_eq s
  | ldaZp z => exact exec_ldaZp_eq z s
  | ldaImm imm => exact exec_ldaImm_eq imm s
  | unk op => exact exec_unk_eq op s

theorem exec_next_iff : exec i s = .next t ↔ t = afterInstr i s := by
  rw [exec_eq, Host.Outcome.next.injEq, eq_comm]

end Sys2Proof.Machine

/-! SUPPORT. What every instruction and every step leaves unchanged, what it may do to `P`, `SP` and memory, and the frame of
each instruction (spec/10_state.md R13, R17, R20 to R24, R29). -/

namespace Sys2Proof.Machine

variable {i : Instr} {s t : State}

/-! ### The status register -/

theorem setFlagIf_p (c : Bool) (f : Flag) (s : State) :
    (setFlagIf c f s).p = s.p ||| (if c then f.mask else 0x00) := by
  cases c <;> simp [setFlagIf]

/-- `UpdateZN` sets bits of `P`, and only Z and N (spec/41_load_accumulator.md R100). -/
theorem updateZN_p_eq_or (v : Byte) (s : State) : ∃ m, m &&& 0x7D = 0 ∧ (updateZN v s).p = s.p ||| m := by
  refine ⟨(if v == 0x00 then Flag.z.mask else 0x00) ||| (if v.getLsbD 7 then Flag.n.mask else 0x00), ?_, ?_⟩
  · have hz : (if v == 0x00 then Flag.z.mask else 0x00) &&& 0x7D = 0 := by split <;> rfl
    have hn : (if v.getLsbD 7 then Flag.n.mask else 0x00) &&& 0x7D = 0 := by split <;> rfl
    rw [BitVec.and_or_distrib_right, hz, hn]
    rfl
  · rw [updateZN, setFlagIf_p, setFlagIf_p, BitVec.or_assoc]

theorem exec_p (h : exec i s = .next t) : t.p = s.p ∨ ∃ v, t.p = (updateZN v s).p := by
  obtain rfl := exec_next_iff.mp h
  cases i with
  | jsr _ => exact .inl rfl
  | rts => exact .inl rfl
  | ldaZp z => exact .inr ⟨byteAt (zext16 z) s, rfl⟩
  | ldaImm imm => exact .inr ⟨imm, rfl⟩
  | unk _ => exact .inl rfl

/-- An instruction sets bits of `P`, and only Z and N (spec/10_state.md R17 (a) and (c)). -/
theorem exec_p_eq_or (h : exec i s = .next t) : ∃ m, m &&& 0x7D = 0 ∧ t.p = s.p ||| m := by
  rcases exec_p h with hp | ⟨v, hp⟩
  · exact ⟨0, rfl, hp.trans BitVec.or_zero.symm⟩
  · rw [hp]
    exact updateZN_p_eq_or v s

/-- The bits of `P` other than Z and N are the same after an instruction. -/
theorem exec_p_and (h : exec i s = .next t) : t.p &&& 0x7D = s.p &&& 0x7D := by
  obtain ⟨m, hm, hp⟩ := exec_p_eq_or h
  rw [hp, BitVec.and_or_distrib_right, hm]
  exact BitVec.or_zero

/-- No instruction clears a bit of `P`. -/
theorem exec_and_p (h : exec i s = .next t) : s.p &&& t.p = s.p := by
  obtain ⟨m, -, hp⟩ := exec_p_eq_or h
  rw [hp]
  ext k hk
  simp +contextual

/-- Settles O16: the operations by their definition, the instructions by `exec_p`. -/
theorem flagOperationsAreBitAlgebra : Obligations.FlagOperationsAreBitAlgebra :=
  ⟨fun f s => ⟨rfl, rfl, rfl, rfl, rfl, by simp [hasFlag]⟩, fun _ _ _ => exec_p⟩

/-- Settles O17: the eight masks, each as the power of two of its bit. -/
theorem flagMasksFollowTheBitLayout : Obligations.FlagMasksFollowTheBitLayout := rfl

/-! ### What every instruction keeps -/

theorem exec_sameConstants (h : exec i s = .next t) : SameConstants s t := by
  obtain rfl := exec_next_iff.mp h
  cases i <;> exact ⟨rfl, rfl, rfl, rfl⟩

theorem exec_mem_wf (h : exec i s = .next t) (hm : s.mem.wf = true) : t.mem.wf = true := by
  obtain rfl := exec_next_iff.mp h
  cases i with
  | jsr _ => exact Memory.wf_write _ _ (Memory.wf_write _ _ hm)
  | rts => exact hm
  | ldaZp _ => exact hm
  | ldaImm _ => exact hm
  | unk _ => exact hm

theorem popWord_sp_of_faithful (h : s.rtsVariant = .faithful) : (popWord s).2.sp = s.sp := by
  rw [popWord_of_faithful s h, popWordFaithful_eq]

theorem popWord_sp_of_corrected (h : s.rtsVariant = .corrected) : (popWord s).2.sp = s.sp + 2 := by
  rw [popWord_of_corrected s h, popWordCorrected_eq]

/-- Settles O33: `RTS` moves `SP` as its variant's pop does. -/
theorem stackPointerMovesOnlyInSubroutineInstructions : Obligations.StackPointerMovesOnlyInSubroutineInstructions := by
  intro i s t h
  obtain rfl := exec_next_iff.mp h
  cases i with
  | jsr target => exact .inr (.inl ⟨target, rfl, rfl⟩)
  | rts =>
    cases hv : s.rtsVariant with
    | faithful => exact .inl (popWord_sp_of_faithful hv)
    | corrected => exact .inr (.inr ⟨rfl, rfl, popWord_sp_of_corrected hv⟩)
  | ldaZp _ => exact .inl rfl
  | ldaImm _ => exact .inl rfl
  | unk _ => exact .inl rfl

/-! ### The frame of each instruction -/

/-- Settles O28: what a load writes of `P` is `exec_p_and`'s. -/
theorem loadsLeaveTheRestUnchanged : Obligations.LoadsLeaveTheRestUnchanged := by
  intro i s t hi h
  have hc := exec_sameConstants h
  have hp := exec_p_and h
  obtain rfl := exec_next_iff.mp h
  rcases hi with ⟨z, rfl⟩ | ⟨imm, rfl⟩
  · exact ⟨rfl, rfl, hc, hp, fun _ => rfl⟩
  · exact ⟨rfl, rfl, hc, hp, fun _ => rfl⟩

/-- Settles O29: a byte at neither of the two stack addresses reads through both writes. -/
theorem jsrLeavesTheRestUnchanged : Obligations.JsrLeavesTheRestUnchanged := by
  intro target s t h
  have hc := exec_sameConstants h
  obtain rfl := exec_next_iff.mp h
  refine ⟨rfl, rfl, rfl, hc, fun a hhi hlo => ?_⟩
  calc byteAt a (afterInstr (.jsr target) s)
      _ = (s.mem.write (stackAddr s.sp) (hiByte (s.pc + 2))).read a := Memory.read_write_ne _ _ hlo.symm
      _ = byteAt a s := Memory.read_write_ne _ _ hhi.symm

/-- Settles O30: `SP` is where the variant's pop leaves it. -/
theorem rtsLeavesTheRestUnchanged : Obligations.RtsLeavesTheRestUnchanged := by
  intro s t h
  have hc := exec_sameConstants h
  obtain rfl := exec_next_iff.mp h
  exact ⟨rfl, rfl, rfl, hc, popWord_sp_of_faithful, popWord_sp_of_corrected, fun _ => rfl⟩

/-- Settles O31: of what it writes, nothing is a register but `PC`, nor memory. -/
theorem unknownOpcodeLeavesTheRestUnchanged : Obligations.UnknownOpcodeLeavesTheRestUnchanged := by
  intro op s t h
  have hc := exec_sameConstants h
  obtain rfl := exec_next_iff.mp h
  exact ⟨rfl, rfl, rfl, hc, fun _ => rfl⟩

/-! ### What every step keeps -/

/-- A step changes the phase at most, or it is the instruction at `PC`. -/
theorem step_phase_or_exec (h : step s = .next t) :
    (∃ ph, t = { s with phase := ph }) ∨ exec (instrAt s) s = .next t := by
  rcases step_cases h with ⟨-, rfl⟩ | ⟨-, -, rfl⟩ | ⟨-, he⟩
  · exact .inl ⟨t.phase, rfl⟩
  · exact .inl ⟨.idle, rfl⟩
  · exact .inr he

/-- No step clears a bit of `P` (spec/10_state.md R17 (c)). -/
theorem step_and_p (h : step s = .next t) : s.p &&& t.p = s.p := by
  rcases step_phase_or_exec h with ⟨_, rfl⟩ | he
  · exact BitVec.and_self
  · exact exec_and_p he

theorem step_constants (h : step s = .next t) : t.rtsVariant = s.rtsVariant ∧ t.x = s.x ∧ t.y = s.y := by
  rcases step_phase_or_exec h with ⟨_, rfl⟩ | he
  · exact ⟨rfl, rfl, rfl⟩
  · obtain ⟨hx, hy, -, hv⟩ := exec_sameConstants he
    exact ⟨hv.symm, hx.symm, hy.symm⟩

theorem State.Inv.exec (hs : s.Inv) (h : exec i s = .next t) : t.Inv := by
  obtain ⟨hx, hy, -, -⟩ := exec_sameConstants h
  exact ⟨(exec_p_and h).trans hs.onlyZN, hx.symm.trans hs.xZero, hy.symm.trans hs.yZero, exec_mem_wf h hs.memWf⟩

theorem State.Inv.step (hs : s.Inv) (h : step s = .next t) : t.Inv := by
  rcases step_phase_or_exec h with ⟨_, rfl⟩ | he
  · exact ⟨hs.onlyZN, hs.xZero, hs.yZero, hs.memWf⟩
  · exact hs.exec he

/-- Settles O42: `P` only gains Z or N, `X` and `Y` are kept, and every write keeps the canonical form. -/
theorem stepKeepsTheInvariant : Obligations.StepKeepsTheInvariant := fun _ _ => State.Inv.step

end Sys2Proof.Machine

/-! SUPPORT. Noninterference: what no instruction reads has no influence on a step (spec/10_state.md R17 (b), R29). -/

namespace Sys2Proof.Machine

variable {s s' t : State}

theorem SameControl.byteAt_eq (h : SameControl s s') (a : Addr) : byteAt a s = byteAt a s' := by
  rw [byteAt, byteAt, h.mem]

theorem SameControl.instrAt_eq (h : SameControl s s') : instrAt s = instrAt s' := by
  simp only [instrAt, h.pc, h.byteAt_eq]

/-- What `RTS` pops, and where it leaves `SP`, comes from `SP`, memory and the parameter. -/
theorem SameControl.popWord_eq (h : SameControl s s') :
    (popWord s).1 = (popWord s').1 ∧ (popWord s).2.sp = (popWord s').2.sp := by
  cases hv : s.rtsVariant with
  | faithful =>
    rw [popWord_of_faithful s hv, popWord_of_faithful s' (h.rtsVariant ▸ hv)]
    simp only [popWordFaithful_eq, h.sp, h.byteAt_eq, and_self]
  | corrected =>
    rw [popWord_of_corrected s hv, popWord_of_corrected s' (h.rtsVariant ▸ hv)]
    simp only [popWordCorrected_eq, h.sp, h.byteAt_eq, and_self]

theorem SameControl.afterInstr (h : SameControl s s') (i : Instr) :
    SameControl (afterInstr i s) (afterInstr i s') := by
  obtain ⟨hword, hspPop⟩ := h.popWord_eq
  obtain ⟨hpc, hsp, hcyc, hmem, hphase, hv⟩ := h
  cases i with
  | jsr target =>
    refine ⟨rfl, congrArg (· - 2) hsp, congrArg (· - 4) hcyc, ?_, hphase, hv⟩
    simp only [Machine.afterInstr, hmem, hsp, hpc]
  | rts => exact ⟨congrArg (· + 1) hword, hspPop, congrArg (· - 3) hcyc, hmem, hphase, hv⟩
  | ldaZp _ => exact ⟨congrArg (· + 2) hpc, hsp, congrArg (· - 3) hcyc, hmem, hphase, hv⟩
  | ldaImm _ => exact ⟨congrArg (· + 2) hpc, hsp, congrArg (· - 2) hcyc, hmem, hphase, hv⟩
  | unk _ => exact ⟨congrArg (· + 1) hpc, hsp, congrArg (· - 1) hcyc, hmem, hphase, hv⟩

theorem step_of_idle (h : s.phase = .idle) : step s = .next s := by
  simp [step, turn, h]

theorem step_of_budget_spent (hp : s.phase = .running) (hc : s.cyc ≤ 0) : step s = .next { s with phase := .idle } := by
  simp [step, turn, hp, hc.not_gt]

theorem step_of_executing (h : s.Executing) : step s = .next (Machine.afterInstr (instrAt s) s) :=
  (turn_executing h).trans (exec_eq _ s)

theorem SameControl.step (h : SameControl s s') (hst : step s = .next t) :
    ∃ t', Machine.step s' = .next t' ∧ SameControl t t' := by
  rcases step_cases hst with ⟨hp, rfl⟩ | ⟨hp, hc, rfl⟩ | ⟨⟨hp, hc⟩, he⟩
  · exact ⟨s', step_of_idle (h.phase ▸ hp), h⟩
  · exact ⟨_, step_of_budget_spent (h.phase ▸ hp) (h.cyc ▸ hc), h.pc, h.sp, h.cyc, h.mem, rfl, h.rtsVariant⟩
  · obtain rfl := exec_next_iff.mp he
    refine ⟨_, step_of_executing ⟨h.phase ▸ hp, h.cyc ▸ hc⟩, ?_⟩
    rw [h.instrAt_eq]
    exact h.afterInstr _

/-- Settles O47: the same instruction runs in both states, and it reads what they share. -/
theorem unreadRegistersDoNotInfluenceAStep : Obligations.UnreadRegistersDoNotInfluenceAStep :=
  fun _ _ _ => SameControl.step

end Sys2Proof.Machine

/-! SUPPORT. The host's moves, and what holds over a launch (spec/10_state.md R12, R17, R25; 70_reset_and_hazards.md). -/

namespace Sys2Proof.Machine

variable {s t : State}

/-! ### The host's moves -/

theorem whileIdle_next {α : Type} {r x : α} (h : whileIdle s r = .next x) : s.phase = .idle ∧ x = r := by
  unfold whileIdle at h
  split at h
  · cases h
  · cases h
    exact ⟨‹_›, rfl⟩
  · cases h

theorem whileIdle_of_running {α : Type} (r : α) (h : s.phase = .running) :
    whileIdle s r = .refused .hostMoveWhileRunning := by
  simp [whileIdle, h]

theorem whileIdle_of_beforeReset {α : Type} (r : α) (h : s.phase = .beforeReset) :
    whileIdle s r = .refused .beforeFirstReset := by
  simp [whileIdle, h]

theorem resetToVector_of_running (v : Addr) (h : s.phase = .running) :
    resetToVector v s = .refused .hostMoveWhileRunning := by
  simp [resetToVector, h]

theorem resetToVector_of_not_running (v : Addr) (h : s.phase ≠ .running) :
    resetToVector v s = .next (resetState v s) := by
  unfold resetToVector
  split
  · rfl
  · rfl
  · contradiction

theorem resetToVector_next {v : Addr} (h : resetToVector v s = .next t) : t = resetState v s := by
  by_cases hr : s.phase = .running
  · rw [resetToVector_of_running v hr] at h
    cases h
  · rw [resetToVector_of_not_running v hr] at h
    cases h
    rfl

/-- Every next state of a host move is one of three: reset, or from an idle state one byte written or a run entered. -/
theorem hostMove_cases {m : HostMove} (h : hostMove m s = .next t) :
    (∃ v, m = .resetToVector v ∧ t = resetState v s) ∨
    (s.phase = .idle ∧ ∃ a v, m = .write a v ∧ t = { s with mem := s.mem.write a v }) ∨
    (s.phase = .idle ∧ ∃ budget, m = .callRun budget ∧ t = enterRun budget s) := by
  cases m with
  | resetToVector v => exact .inl ⟨v, rfl, resetToVector_next h⟩
  | write a v =>
    obtain ⟨hp, ht⟩ := whileIdle_next h
    exact .inr (.inl ⟨hp, a, v, rfl, ht⟩)
  | callRun budget =>
    obtain ⟨hp, ht⟩ := whileIdle_next h
    exact .inr (.inr ⟨hp, budget, rfl, ht⟩)

/-- Settles O55: outside a run the outcome is `resetState`, whose fields are the reset values. -/
theorem resetWritesTheResetValues : Obligations.ResetWritesTheResetValues := by
  refine ⟨fun v s hp => ⟨resetState v s, resetToVector_of_not_running v hp, ?_⟩, fun _ => rfl,
    fun v _ => resetToVector_of_running v⟩
  exact ⟨rfl, rfl, rfl, rfl, rfl, rfl, byteAt_of_mem_eq_nil (resetState_mem s v), rfl, rfl, rfl⟩

/-- Settles O58: every move but reset, and every read, goes through `whileIdle`. -/
theorem hostActsOnlyWhileIdle : Obligations.HostActsOnlyWhileIdle := by
  refine ⟨fun m s hp => ?_, fun m s hp hm => ?_, fun a s hp => ?_, fun a budget s hp => ?_⟩
  · cases m with
    | resetToVector v => exact resetToVector_of_running v hp
    | write _ _ => exact whileIdle_of_running _ hp
    | callRun _ => exact whileIdle_of_running _ hp
  · cases m with
    | resetToVector v => exact absurd rfl (hm v)
    | write _ _ => exact whileIdle_of_beforeReset _ hp
    | callRun _ => exact whileIdle_of_beforeReset _ hp
  · exact ⟨whileIdle_of_running _ hp, whileIdle_of_running _ hp⟩
  · have hrun : run budget s = .refused .beforeFirstReset := by
      rw [run, callRun, whileIdle_of_beforeReset _ hp]
    exact ⟨whileIdle_of_beforeReset _ hp, whileIdle_of_beforeReset _ hp, hrun⟩

/-- Settles O46: a step by `step_and_p`; a host write and the entry to a run do not touch `P`. -/
theorem flagsAreStickyUntilReset : Obligations.FlagsAreStickyUntilReset := by
  refine ⟨fun s t => step_and_p, fun m s t h hm => ?_⟩
  rcases hostMove_cases h with ⟨v, rfl, -⟩ | ⟨-, _, _, -, rfl⟩ | ⟨-, _, -, rfl⟩
  · exact absurd rfl (hm v)
  · rfl
  · rfl

/-- Settles O48: a step by `step_constants`; no host move writes the parameter. -/
theorem parameterAndIndexRegistersAreConstant : Obligations.ParameterAndIndexRegistersAreConstant := by
  refine ⟨fun s t => step_constants, fun m s t h => ?_⟩
  rcases hostMove_cases h with ⟨_, -, rfl⟩ | ⟨-, _, _, -, rfl⟩ | ⟨-, _, -, rfl⟩
  · rfl
  · rfl
  · rfl

/-! ### The invariant over a launch -/

/-- Settles O43: the registers are 0 and no byte of memory is listed. -/
theorem resetStateMeetsTheInvariant : Obligations.ResetStateMeetsTheInvariant :=
  ⟨rfl, rfl, rfl, State.reset_mem_wf⟩

/-- A reset establishes the invariant from any state. -/
theorem resetState_inv (v : Addr) (s : State) : (resetState v s).Inv :=
  ⟨BitVec.zero_and, rfl, rfl, Memory.wf_init s.mem⟩

theorem State.Inv.hostMove {m : HostMove} (hs : s.Inv) (h : hostMove m s = .next t) : t.Inv := by
  rcases hostMove_cases h with ⟨v, -, rfl⟩ | ⟨-, a, v, -, rfl⟩ | ⟨-, _, -, rfl⟩
  · exact resetState_inv v s
  · exact ⟨hs.onlyZN, hs.xZero, hs.yZero, Memory.wf_write a v hs.memWf⟩
  · exact ⟨hs.onlyZN, hs.xZero, hs.yZero, hs.memWf⟩

/-- Before the first reset there is no step. -/
theorem step_phase_ne_beforeReset (h : step s = .next t) : s.phase ≠ .beforeReset := by
  rcases step_cases h with ⟨hp, -⟩ | ⟨hp, -⟩ | ⟨⟨hp, -⟩, -⟩ <;> simp [hp]

/-- At every moment of a launch after the first reset the invariant holds. -/
theorem Reachable.inv (h : Reachable s) (hp : s.phase ≠ .beforeReset) : s.Inv := by
  induction h with
  | powerOn s hs => exact absurd hs hp
  | host m s t _ hm ih =>
    rcases hostMove_cases hm with ⟨v, -, rfl⟩ | ⟨hidle, -⟩ | ⟨hidle, -⟩
    · exact resetState_inv v s
    · exact (ih (by simp [hidle])).hostMove hm
    · exact (ih (by simp [hidle])).hostMove hm
  | core s t _ hst ih => exact (ih (step_phase_ne_beforeReset hst)).step hst

/-- A `P` with no bit but Z and N has one of four values. -/
theorem p_mem_of_onlyZN {p : Byte} (h : p &&& 0x7D = 0) : p ∈ [(0x00 : Byte), 0x02, 0x80, 0x82] := by
  revert p
  decide

/-- Settles O45: `Reachable.inv`, with the invariant's clause on `P` read as a list of values. -/
theorem everyMomentAfterResetIsSafe : Obligations.EveryMomentAfterResetIsSafe := by
  intro s h hp
  obtain ⟨hzn, hx, hy, hm⟩ := h.inv hp
  exact ⟨p_mem_of_onlyZN hzn, hx, hy, hm⟩

end Sys2Proof.Machine

/-! SUPPORT. A memory in canonical form is known by what it reads as (spec/10_state.md R19). -/

namespace Sys2Proof.Machine

theorem Memory.mem_of_readNat_ne_zero {m : Memory} {a : Nat} (h : m.readNat a ≠ 0x00) : (a, m.readNat a) ∈ m := by
  induction m with
  | nil => exact absurd rfl h
  | cons c m ih =>
    rw [Memory.readNat_cons] at h ⊢
    split_ifs at h ⊢ with hc
    · simp [← hc]
    · exact List.mem_cons_of_mem _ (ih h)

/-- In rising order an address is listed once, so an entry is what its address reads as. -/
theorem Memory.readNat_of_mem {m : Memory} (hm : m.Pairwise fun c d => c.1 < d.1) {c : Host.Cell} (hc : c ∈ m) :
    m.readNat c.1 = c.2 := by
  induction hm with
  | nil => cases hc
  | cons hlt _ ih =>
    rename_i d m
    rw [Memory.readNat_cons]
    rcases List.mem_cons.mp hc with rfl | hc
    · rw [if_pos rfl]
    · rw [if_neg (hlt c hc).ne, ih hc]

/-- An entry of a canonical memory is an existing address with the nonzero byte that it reads as. -/
theorem Memory.mem_iff_of_wf {m : Memory} (hm : m.wf = true) (c : Host.Cell) :
    c ∈ m ↔ c.1 < Config.memSize ∧ c.2 ≠ 0x00 ∧ m.readNat c.1 = c.2 := by
  obtain ⟨hrise, hcell⟩ := (Memory.wf_iff m).mp hm
  constructor
  · intro hc
    exact ⟨(hcell c hc).1, (hcell c hc).2, Memory.readNat_of_mem hrise hc⟩
  · rintro ⟨-, hne, hread⟩
    rw [← hread] at hne
    have hmem := Memory.mem_of_readNat_ne_zero hne
    rwa [hread] at hmem

theorem Memory.readNat_eq_read (m : Memory) {a : Nat} (h : a < Config.memSize) :
    m.readNat a = m.read (BitVec.ofNat 16 a) := by
  rw [Memory.read, BitVec.toNat_ofNat, Nat.mod_eq_of_lt (show a < 2 ^ 16 from h)]

/-- Settles O9: reading alike they have the same entries, and a rising order arranges these in one way. -/
theorem canonicalMemoriesReadingAlikeAreEqual : Obligations.CanonicalMemoriesReadingAlikeAreEqual := by
  intro m m' hm hm' hread
  have hirrefl : Std.Irrefl fun c d : Host.Cell => c.1 < d.1 := ⟨fun c => lt_irrefl c.1⟩
  have hantisymm : Std.Antisymm fun c d : Host.Cell => c.1 < d.1 := ⟨fun c d h h' => absurd h' h.not_gt⟩
  refine ((Memory.wf_iff m).mp hm).1.eq_of_mem_iff ((Memory.wf_iff m').mp hm').1 fun c => ?_
  rw [Memory.mem_iff_of_wf hm, Memory.mem_iff_of_wf hm']
  refine and_congr_right fun hlt => ?_
  rw [Memory.readNat_eq_read m hlt, Memory.readNat_eq_read m' hlt, hread]

end Sys2Proof.Machine

/-! SUPPORT. The memory interface and the record of accesses (spec/20_memory.md R40, R41, R43), and where and when memory
changes (R42, R47, R54). -/

namespace Sys2Proof.Machine

variable {i : Instr} {s t : State}

/-! ### One byte access, and the two of a 16-bit quantity -/

theorem byteAt_memWrite (a b : Addr) (v : Byte) (s : State) :
    byteAt b (memWrite a v s) = if b = a then v else byteAt b s :=
  (Memory.read_write s.mem a b v).trans (if_congr eq_comm rfl rfl)

/-- Settles O7: both accesses write the record by their definition, and a read after a write is `byteAt_memWrite`. -/
theorem memoryReadsAndWritesBytes : Obligations.MemoryReadsAndWritesBytes :=
  ⟨fun _ _ => ⟨rfl, rfl⟩, fun a v s => ⟨rfl, fun b => byteAt_memWrite a b v s⟩⟩

theorem fetchWord_trace (s : State) : (fetchWord s).2.trace =
    s.trace ++ [.read s.pc (byteAt s.pc s), .read (s.pc + 1) (byteAt (s.pc + 1) s)] := by
  rw [fetchWord_eq]

theorem pushWord_trace (v : Addr) (s : State) : (pushWord v s).trace =
    s.trace ++ [.write (stackAddr s.sp) (hiByte v), .write (stackAddr (s.sp - 1)) (loByte v)] := by
  rw [pushWord_eq]

/-- Settles O8: one byte access by the laws of the state, a 16-bit quantity by the order of its two accesses. -/
theorem everyByteAccessIsRecordedInOrder : Obligations.EveryByteAccessIsRecordedInOrder :=
  fun a v b s => ⟨memRead_trace s a, memWrite_trace s a b, fetchWord_trace s, pushWord_trace v s⟩

/-! ### Where memory changes -/

/-- Every stack address lies in the stack page (spec/40_core_loop.md R83). -/
theorem inStackPage_stackAddr (sp : Byte) : InStackPage (stackAddr sp) := by
  have hsp := sp.isLt
  unfold InStackPage
  rw [stackAddr_toNat]
  omega

theorem ne_stackAddr_of_not_inStackPage {a : Addr} (h : ¬ InStackPage a) (sp : Byte) : a ≠ stackAddr sp :=
  fun ha => h (ha ▸ inStackPage_stackAddr sp)

/-- Only `JSR` writes memory (spec/20_memory.md R42). -/
theorem exec_mem_of_ne_jsr (h : exec i s = .next t) (hi : ∀ target, i ≠ .jsr target) : t.mem = s.mem := by
  obtain rfl := exec_next_iff.mp h
  cases i with
  | jsr target => exact absurd rfl (hi target)
  | rts => rfl
  | ldaZp _ => rfl
  | ldaImm _ => rfl
  | unk _ => rfl

/-- Settles O32: `JSR` writes at two stack addresses and no other instruction writes at all. -/
theorem onlyJsrStoresAndOnlyInTheStackPage : Obligations.OnlyJsrStoresAndOnlyInTheStackPage := by
  refine fun i s t h => ⟨fun a ha => ?_, exec_mem_of_ne_jsr h⟩
  by_cases hi : ∃ target, i = .jsr target
  · obtain ⟨target, rfl⟩ := hi
    obtain ⟨-, -, -, -, hframe⟩ := jsrLeavesTheRestUnchanged target s t h
    exact hframe a (ne_stackAddr_of_not_inStackPage ha _) (ne_stackAddr_of_not_inStackPage ha _)
  · rw [byteAt, exec_mem_of_ne_jsr h (not_exists.mp hi), byteAt]

/-! ### The pushed bytes -/

/-- The two bytes of a push lie at two addresses, across the wrap of the stack page too. -/
theorem stackAddr_sub_one_ne (sp : Byte) : stackAddr (sp - 1) ≠ stackAddr sp := by
  intro h
  have := stackAddr_inj h
  bv_omega

theorem byteAt_pushWord_high (v : Addr) (s : State) : byteAt (stackAddr s.sp) (pushWord v s) = hiByte v := by
  rw [pushWord_eq, byteAt, Memory.read_write_ne _ _ (stackAddr_sub_one_ne s.sp), Memory.read_write_same]

theorem byteAt_pushWord_low (v : Addr) (s : State) : byteAt (stackAddr (s.sp - 1)) (pushWord v s) = loByte v := by
  rw [pushWord_eq, byteAt, Memory.read_write_same]

/-- `JSR` leaves memory as the push of its last byte's address does (spec/42_subroutine.md R110). -/
theorem afterInstr_jsr_mem (target : Addr) (s : State) :
    (afterInstr (.jsr target) s).mem = (pushWord (s.pc + 2) s).mem := by
  rw [pushWord_eq, afterInstr]

/-- A fetch gives the byte at `PC` of the memory it finds (spec/20_memory.md R54). -/
theorem fetchByte_val_of_mem_eq (h : s.mem = t.mem) : (fetchByte s).1 = byteAt s.pc t := by
  rw [fetchByte_eq, byteAt, byteAt, h]

/-- Settles O36: a fetch reads the memory that the push left; the next opcode is the fetch in the state after `JSR` itself. -/
theorem fetchSeesThePushedByte : Obligations.FetchSeesThePushedByte := by
  intro target s
  have hfetch (u : State) (hu : u.mem = (afterInstr (.jsr target) s).mem) :
      (fetchByte u).1 = byteAt u.pc (pushWord (s.pc + 2) s) :=
    fetchByte_val_of_mem_eq (hu.trans (afterInstr_jsr_mem target s))
  refine ⟨afterInstr (.jsr target) s, exec_eq _ s, fun u hu => ⟨fun hpc => ?_, fun hpc => ?_⟩, fun htarget => ?_⟩
  · rw [hfetch u hu, hpc, byteAt_pushWord_high]
  · rw [hfetch u hu, hpc, byteAt_pushWord_low]
  · have hop : byteAt target (afterInstr (.jsr target) s) = hiByte (s.pc + 2) :=
      (hfetch _ rfl).trans (htarget ▸ byteAt_pushWord_high _ s)
    exact ⟨_, _, congrArg (· :: [byteAt (target + 1) _, byteAt (target + 2) _]) hop⟩

end Sys2Proof.Machine

/-! SUPPORT. Decoding and encoding are inverse, and the opcode byte alone fixes an instruction's length and table row
(spec/30_encoding.md R60 to R69). `decode_cons_eq_ok_iff` says once when the list decoder answers. -/

namespace Sys2Proof

variable {i : Instr} {op : Byte} {bytes rest : List Byte}

/-! ### The instruction that three bytes hold -/

theorem wellFormed_unk_iff : (Instr.unk op).WellFormed ↔ op ∉ assignedOpcodes := by
  rw [Instr.WellFormed, Instr.illFormed, ite_eq_right_iff]
  simp

/-- The decoder reads `unk` for the unassigned bytes alone (spec/30_encoding.md R68). -/
theorem decodeOp_eq_unk_iff (op b1 b2 : Byte) : decodeOp op b1 b2 = .unk op ↔ op ∉ assignedOpcodes := by
  refine ⟨fun h hop => ?_, decodeOp_unk b1 b2⟩
  rcases decodeOp_cases b1 b2 op with ⟨-, hd⟩ | ⟨-, hd⟩ | ⟨-, hd⟩ | ⟨-, hd⟩ | ⟨hop', -⟩
  case inr.inr.inr.inr => exact hop' hop
  all_goals cases hd.symm.trans h

theorem decodeOp_wellFormed (op b1 b2 : Byte) : (decodeOp op b1 b2).WellFormed := by
  rcases decodeOp_cases b1 b2 op with ⟨-, hd⟩ | ⟨-, hd⟩ | ⟨-, hd⟩ | ⟨-, hd⟩ | ⟨hop, hd⟩ <;> rw [hd]
  case inr.inr.inr.inr => exact wellFormed_unk_iff.mpr hop
  all_goals rfl

/-- The lengths by opcode byte (spec/30_encoding.md R62). -/
theorem decodeOp_length (op b1 b2 : Byte) : (decodeOp op b1 b2).length =
    if op = 0xA9 ∨ op = 0xA5 then 2 else if op = 0x20 then 3 else 1 := by
  rcases decodeOp_cases b1 b2 op with ⟨rfl, hd⟩ | ⟨rfl, hd⟩ | ⟨rfl, hd⟩ | ⟨rfl, hd⟩ | ⟨hop, hd⟩ <;> rw [hd]
  case inr.inr.inr.inr =>
    simp only [assignedOpcodes, List.mem_cons, not_or] at hop
    obtain ⟨hjsr, -, hzp, himm, -⟩ := hop
    rw [if_neg (not_or.mpr ⟨himm, hzp⟩), if_neg hjsr, Instr.length]
  all_goals rfl

theorem Instr.one_le_length (i : Instr) : 1 ≤ i.length := by
  cases i <;> simp [Instr.length]

theorem Instr.length_le_maxLength (i : Instr) : i.length ≤ maxLength := by
  cases i <;> simp [Instr.length, maxLength]

/-- The decoder's instruction is encoded by as many of the bytes it looked at as it has. -/
theorem encode_decodeOp (op b1 b2 : Byte) :
    encode (decodeOp op b1 b2) = [op, b1, b2].take (decodeOp op b1 b2).length := by
  rcases decodeOp_cases b1 b2 op with ⟨rfl, hd⟩ | ⟨rfl, hd⟩ | ⟨rfl, hd⟩ | ⟨rfl, hd⟩ | ⟨-, hd⟩ <;> rw [hd]
  case inl => simp [encode, Instr.length]
  all_goals rfl

theorem head?_encode_decodeOp (op b1 b2 : Byte) : (encode (decodeOp op b1 b2)).head? = some op := by
  rw [encode_decodeOp, List.head?_take, if_neg (Nat.pos_iff_ne_zero.mp (Instr.one_le_length _)), List.head?_cons]

/-! ### The list decoder -/

/-- When the list decoder answers: the list holds as many bytes as the instruction has. -/
theorem decode_cons_eq_ok_iff : decode (op :: bytes) = .ok (i, rest) ↔
    i = decodeOp op (bytes.getD 0 0) (bytes.getD 1 0) ∧ i.length ≤ bytes.length + 1 ∧ rest = bytes.drop (i.length - 1) := by
  rw [decode_cons]
  constructor
  · intro h
    split at h
    · cases h
      exact ⟨rfl, ‹_›, rfl⟩
    · cases h
  · rintro ⟨rfl, hlen, rfl⟩
    exact if_pos hlen

/-- Reading 0x00 past the end of the list, as the decoder does, alters no byte that the list has. -/
theorem take_opcode_getD {n : Nat} (hn : n ≤ maxLength) (hlen : n ≤ bytes.length + 1) :
    [op, bytes.getD 0 0, bytes.getD 1 0].take n = (op :: bytes).take n := by
  match n, bytes, hn, hlen with
  | 0, _, _, _ => rfl
  | 1, _, _, _ => rfl
  | 2, _ :: _, _, _ => rfl
  | 3, _ :: _ :: _, _, _ => rfl
  | 2, [], _, hlen => simp at hlen
  | 3, [], _, hlen => simp at hlen
  | 3, [_], _, hlen => simp at hlen
  | n + 4, _, hn, _ => simp [maxLength] at hn

/-- Settles O3, by the instruction: each opcode byte selects its own arm, and a word's two bytes give the word back. -/
theorem decodeOfEncodeGivesTheInstruction : Obligations.DecodeOfEncodeGivesTheInstruction := by
  intro i rest hi
  cases i with
  | jsr target => exact congrArg (fun v => Except.ok (Instr.jsr v, rest)) (Machine.wordOf_hiByte_loByte target)
  | rts => rfl
  | ldaZp _ => rfl
  | ldaImm _ => rfl
  | unk op =>
    have hop := decodeOp_unk (rest.getD 0 0) (rest.getD 1 0) (wellFormed_unk_iff.mp hi)
    exact decode_cons_eq_ok_iff.mpr ⟨hop.symm, Nat.le_add_left 1 _, rfl⟩

/-- Settles O4: the encoding is the front of the list, as long as the instruction, and the decoder leaves the back. -/
theorem encodeOfDecodeGivesTheBytes : Obligations.EncodeOfDecodeGivesTheBytes := by
  intro bytes rest i h
  cases bytes with
  | nil => cases h
  | cons op bytes =>
    obtain ⟨hi, hlen, rfl⟩ := decode_cons_eq_ok_iff.mp h
    have hfront : encode i = (op :: bytes).take i.length := by
      rw [← take_opcode_getD i.length_le_maxLength hlen, hi, encode_decodeOp]
    have hback : bytes.drop (i.length - 1) = (op :: bytes).drop i.length := by
      rw [List.drop_cons i.one_le_length]
    refine ⟨hi ▸ decodeOp_wellFormed _ _ _, ?_⟩
    rw [hfront, hback, List.take_append_drop]

/-- Settles O5: three bytes are enough for any instruction, so the list decoder answers what `decodeOp` reads. -/
theorem everyOpcodeByteDecodes : Obligations.EveryOpcodeByteDecodes := by
  intro op b1 b2 rest
  have hlen : (decodeOp op b1 b2).length ≤ (b1 :: b2 :: rest).length + 1 :=
    (Instr.length_le_maxLength _).trans (by simp [maxLength])
  exact ⟨decodeOp op b1 b2, _, decode_cons_eq_ok_iff.mpr ⟨rfl, hlen, rfl⟩, decodeOp_wellFormed op b1 b2,
    decodeOp_eq_unk_iff op b1 b2⟩

/-- Settles O6: the decoder drops the instruction's length, which `decodeOp_length` reads off the opcode byte. -/
theorem opcodeByteAloneGivesTheLength : Obligations.OpcodeByteAloneGivesTheLength := by
  intro op bytes rest i h
  obtain ⟨hi, hlen, rfl⟩ := decode_cons_eq_ok_iff.mp h
  have hpos := i.one_le_length
  rw [← decodeOp_length op (bytes.getD 0 0) (bytes.getD 1 0), ← hi, List.length_drop]
  omega

/-- Settles O1: the list decoder run on each written-out list of bytes. -/
theorem decoderReadsTheSpecsBytes : Obligations.DecoderReadsTheSpecsBytes :=
  ⟨rfl, rfl, rfl, rfl, rfl⟩

/-! ### The opcode table -/

theorem tableRow_statement (i : Instr) : Laws.TableRow.Statement i := by
  cases i with
  | jsr target => exact Laws.TableRow.jsr target
  | rts => exact Laws.TableRow.rts
  | ldaZp z => exact Laws.TableRow.ldaZp z
  | ldaImm imm => exact Laws.TableRow.ldaImm imm
  | unk op => exact Laws.TableRow.unk op

/-- Settles O2: the row law of the decoded instruction, whose encoding starts with the opcode byte. -/
theorem opcodeTableRowMatchesDecodedInstruction : Obligations.OpcodeTableRowMatchesDecodedInstruction := by
  intro op b1 b2
  obtain ⟨-, hrow⟩ := tableRow_statement _ (decodeOp_wellFormed op b1 b2)
  rwa [head?_encode_decodeOp, Option.bind_some] at hrow

end Sys2Proof

/-! SUPPORT. The bytes at `PC` select what a step runs (spec/30_encoding.md R60, R61, R63). -/

namespace Sys2Proof.Machine

/-- Settles O40: a step inside a run executes the instruction at `PC`, which the decoder's laws give for each opcode byte. -/
theorem bytesAtPcSelectTheInstruction : Obligations.BytesAtPcSelectTheInstruction := by
  intro s hs
  have hstep : step s = exec (decodeOp (byteAt s.pc s) (byteAt (s.pc + 1) s) (byteAt (s.pc + 2) s)) s := turn_executing hs
  refine ⟨fun h => ?_, fun h => ?_, fun h => ?_, fun h => ?_, fun h => ?_⟩
  · rw [hstep, h, decodeOp_ldaImm]
  · rw [hstep, h, decodeOp_ldaZp]
  · rw [hstep, h, decodeOp_jsr]
  · rw [hstep, h, decodeOp_rts]
  · rw [hstep, decodeOp_unk _ _ h]

end Sys2Proof.Machine

/-! SUPPORT. The core's primitives (spec/40_core_loop.md R80 to R86), the unknown opcode (R92) and the cost of an instruction
(R88). -/

namespace Sys2Proof

theorem Instr.one_le_cycles (i : Instr) : 1 ≤ i.cycles := by
  cases i <;> simp [Instr.cycles]

theorem Instr.cycles_le_four (i : Instr) : i.cycles ≤ 4 := by
  cases i <;> simp [Instr.cycles]

end Sys2Proof

namespace Sys2Proof.Machine

variable {i : Instr} {s t : State}

/-! ### Fetching -/

/-- Settles O10: `fetchByte` by its definition, whose `PC + 1` wraps at 0xFFFF. -/
theorem fetchByteAdvancesByOne : Obligations.FetchByteAdvancesByOne := by
  refine fun s => ⟨rfl, rfl, fun hpc => ?_⟩
  rw [fetchByte_eq, hpc]
  rfl

/-- A word fetched is two bytes fetched, the low one first (spec/40_core_loop.md R81). -/
theorem fetchWord_eq_fetchByte_fetchByte (s : State) :
    fetchWord s = (wordOf (fetchByte (fetchByte s).2).1 (fetchByte s).1, (fetchByte (fetchByte s).2).2) := by
  simp [fetchWord_eq, fetchByte_eq, byteAt, BitVec.add_assoc, Int.sub_sub]

/-- Settles O11: the closed form, the two fetches of a byte, and `PC + 1` wrapping at 0xFFFF. -/
theorem fetchWordIsLittleEndian : Obligations.FetchWordIsLittleEndian := by
  refine fun s => ⟨fetchWord_eq s, fetchWord_eq_fetchByte_fetchByte s, fun hpc => ?_⟩
  rw [fetchWord_eq, hpc]
  rfl

/-! ### The zero page and the stack page -/

/-- Settles O12: the address has the value of its 8 bits, and the read is `readZp` by its definition. -/
theorem zeroPageReadStaysInTheZeroPage : Obligations.ZeroPageReadStaysInTheZeroPage := by
  intro z s
  have hz : (zext16 z).toNat = z.toNat := BitVec.toNat_setWidth_of_le (by decide)
  have hlt := z.isLt
  exact ⟨hz, by omega, rfl, rfl⟩

/-- Settles O13: `stackAddr_toNat` and `inStackPage_stackAddr`. -/
theorem stackAddressLiesInTheStackPage : Obligations.StackAddressLiesInTheStackPage :=
  fun sp => ⟨rfl, stackAddr_toNat sp, inStackPage_stackAddr sp⟩

theorem byteAt_pushWord_of_ne (v : Addr) {a : Addr} (hhi : a ≠ stackAddr s.sp) (hlo : a ≠ stackAddr (s.sp - 1)) :
    byteAt a (pushWord v s) = byteAt a s := by
  rw [pushWord_eq, byteAt, Memory.read_write_ne _ _ hlo.symm, Memory.read_write_ne _ _ hhi.symm, byteAt]

/-- Settles O14: the two bytes by the laws of the push; with `SP = 0x00` its two addresses are 0x0100 and 0x01FF. -/
theorem pushWordWritesHighThenLow : Obligations.PushWordWritesHighThenLow := by
  intro v s
  have hhigh := byteAt_pushWord_high v s
  have hlow := byteAt_pushWord_low v s
  refine ⟨by rw [pushWord_eq], hhigh, hlow, fun a => byteAt_pushWord_of_ne v, fun hsp => ?_⟩
  have hsp' : (pushWord v s).sp = s.sp - 2 := by rw [pushWord_eq]
  rw [hsp] at hhigh hlow hsp'
  exact ⟨hhigh, hlow, hsp'⟩

/-- Settles O15: `stackRead_eq`, and `tick` by its definition. -/
theorem stackReadAndTickKeepTheStackPointer : Obligations.StackReadAndTickKeepTheStackPointer :=
  ⟨stackRead_eq, fun _ _ => rfl⟩

/-! ### The unknown opcode -/

/-- Settles O25: one byte is enough for an unassigned opcode, and `exec_unk_eq` is the state after it. -/
theorem unknownOpcodeIsReportedAndPassedOver : Obligations.UnknownOpcodeIsReportedAndPassedOver := by
  intro op s hop
  have hdecode : Instr.unk op = decodeOp op 0 0 := (decodeOp_unk 0 0 hop).symm
  exact ⟨decode_cons_eq_ok_iff.mpr ⟨hdecode, Nat.le_refl 1, rfl⟩, exec_unk_eq op s⟩

/-! ### Costs -/

/-- An instruction takes from `CYC` the cost that the opcode table states (spec/30_encoding.md R66). -/
theorem afterInstr_cyc (i : Instr) (s : State) : (afterInstr i s).cyc = s.cyc - i.cycles := by
  cases i <;> rfl

/-- Settles O27: the cost is the table's, read off for each instruction. -/
theorem instructionCostsAreFixed : Obligations.InstructionCostsAreFixed := by
  intro i s t h
  have hcost : s.cyc - t.cyc = i.cycles := by
    rw [exec_next_iff.mp h, afterInstr_cyc, sub_sub_cancel]
  rw [hcost]
  cases i <;> rfl

end Sys2Proof.Machine

/-! SUPPORT. One step, inside and outside a run, and the spec's `Step()` (spec/40_core_loop.md R90, R91). -/

namespace Sys2Proof.Machine

variable {s : State}

theorem decode_instrBytes (s : State) :
    decode (instrBytes s) = .ok (instrAt s, (instrBytes s).drop (instrAt s).length) := by
  refine decode_cons_eq_ok_iff.mpr ⟨rfl, Instr.length_le_maxLength _, ?_⟩
  rw [instrBytes, List.drop_cons (Instr.one_le_length _)]

/-- Settles O37: the bytes at `PC` decode to `instrAt`, which the step executes. -/
theorem stepRunsTheDecodedInstruction : Obligations.StepRunsTheDecodedInstruction := by
  refine fun s hs => ⟨⟨_, _, decode_instrBytes s, decodeOp_wellFormed _ _ _⟩, fun i rest h => ?_⟩
  cases (decode_instrBytes s).symm.trans h
  exact turn_executing hs

theorem step_of_beforeReset (h : s.phase = .beforeReset) : step s = .refused .beforeFirstReset := by
  simp [step, turn, h]

/-- Settles O38: one law of the step for each of the three. -/
theorem stepOutsideARunExecutesNothing : Obligations.StepOutsideARunExecutesNothing :=
  fun _ => ⟨fun ⟨hp, hc⟩ => step_of_budget_spent hp hc, step_of_idle, step_of_beforeReset⟩

/-! ### The spec's `Step()`: the handler that the opcode byte selects -/

theorem specStep_of_ldaImm (h : byteAt s.pc s = 0xA9) : specStep s = specLdaImm (fetchByte s).2 :=
  if_pos h

theorem specStep_of_ldaZp (h : byteAt s.pc s = 0xA5) : specStep s = specLdaZp (fetchByte s).2 := by
  simp [specStep, fetchByte_eq, h]

theorem specStep_of_jsr (h : byteAt s.pc s = 0x20) : specStep s = specJsr (fetchByte s).2 := by
  simp [specStep, fetchByte_eq, h]

theorem specStep_of_rts (h : byteAt s.pc s = 0x60) : specStep s = specRts (fetchByte s).2 := by
  simp [specStep, fetchByte_eq, h]

theorem specStep_of_unk (h : byteAt s.pc s ∉ assignedOpcodes) :
    specStep s = emitDiag (byteAt s.pc s) ((fetchByte s).2.pc - 1) (fetchByte s).2 := by
  simp only [assignedOpcodes, List.mem_cons, not_or] at h
  obtain ⟨hjsr, hrts, hzp, himm, -⟩ := h
  exact (if_neg himm).trans ((if_neg hzp).trans ((if_neg hjsr).trans (if_neg hrts)))

/-! ### Each meaning is its handler after the opcode fetch, the operand being the one that the handler fetches -/

theorem exec_ldaImm_eq_specLdaImm (s : State) :
    exec (.ldaImm (byteAt (s.pc + 1) s)) s = .next (specLdaImm (fetchByte s).2) := rfl

theorem exec_ldaZp_eq_specLdaZp (s : State) :
    exec (.ldaZp (byteAt (s.pc + 1) s)) s = .next (specLdaZp (fetchByte s).2) := rfl

theorem exec_jsr_eq_specJsr (s : State) :
    exec (.jsr (wordOf (byteAt (s.pc + 2) s) (byteAt (s.pc + 1) s))) s = .next (specJsr (fetchByte s).2) := by
  have htarget : (fetchWord (fetchByte s).2).1 = wordOf (byteAt (s.pc + 2) s) (byteAt (s.pc + 1) s) := by
    simp [fetchWord_eq, fetchByte_eq, byteAt, BitVec.add_assoc]
  rw [← htarget]
  rfl

theorem exec_rts_eq_specRts (s : State) : exec .rts s = .next (specRts (fetchByte s).2) := by
  cases hv : s.rtsVariant with
  | faithful => simp [exec, execRts, consumeOpcode, popWord, popWordFaithful, specRts, fetchByte_eq, hv]
  | corrected => simp [exec, execRts, consumeOpcode, popWord, popWordCorrected, specRts, fetchByte_eq, hv]

theorem exec_unk_eq_emitDiag (op : Byte) (s : State) :
    exec (.unk op) s = .next (emitDiag op ((fetchByte s).2.pc - 1) (fetchByte s).2) := rfl

/-- Settles O39, by the opcode byte: the instruction at `PC` is the one whose handler `Step()` selects. -/
theorem stepRefinesTheSpecsStep : Obligations.StepRefinesTheSpecsStep := by
  intro s hs
  have hstep : step s = exec (instrAt s) s := turn_executing hs
  rw [hstep]
  rcases decodeOp_cases (byteAt (s.pc + 1) s) (byteAt (s.pc + 2) s) (byteAt s.pc s) with
    ⟨hop, hi⟩ | ⟨hop, hi⟩ | ⟨hop, hi⟩ | ⟨hop, hi⟩ | ⟨hop, hi⟩ <;> rw [instrAt, hi]
  · rw [specStep_of_jsr hop, exec_jsr_eq_specJsr]
  · rw [specStep_of_rts hop, exec_rts_eq_specRts]
  · rw [specStep_of_ldaZp hop, exec_ldaZp_eq_specLdaZp]
  · rw [specStep_of_ldaImm hop, exec_ldaImm_eq_specLdaImm]
  · rw [specStep_of_unk hop, exec_unk_eq_emitDiag]

end Sys2Proof.Machine

/-! SUPPORT. Whole runs (spec/40_core_loop.md R90 to R97). `RunsTo s k t` says what a run does without counting turns: `loop`,
`instrCount` and `CYC` are each related to it once, and the statements about `run` follow. -/

namespace Sys2Proof.Machine

variable {s t u : State} {j k : Nat} {budget : Int}

/-- The rest of a run from the running state `s` executes `k` instructions and returns in `t` (R90).
`RunsTo.loop_eq` and `RunsTo.instrCount_eq` tie it to the model. -/
inductive RunsTo : State → Nat → State → Prop where
  /-- The budget test fails: the run ends (R94). -/
  | spent {s : State} : s.phase = .running → s.cyc ≤ 0 → RunsTo s 0 { s with phase := .idle }
  /-- The budget test holds: the instruction at `PC` runs, and the run goes on (R91). -/
  | executing {s t : State} {k : Nat} : s.Executing → RunsTo (afterInstr (instrAt s) s) k t → RunsTo s (k + 1) t

/-! ### `RunsTo`, the loop and the count of instructions -/

/-- With more turns than instructions the loop reaches the end of the run. -/
theorem RunsTo.loop_eq (h : RunsTo s k t) {fuel : Nat} (hfuel : k < fuel) : loop fuel s = .next t := by
  induction h generalizing fuel with
  | spent hp hc =>
    obtain ⟨fuel, rfl⟩ := Nat.exists_eq_add_of_lt hfuel
    rw [Nat.zero_add, loop_succ fuel (step_of_budget_spent hp hc), loop_idle fuel rfl]
  | executing hs _ ih =>
    obtain ⟨fuel, rfl⟩ := Nat.exists_eq_succ_of_ne_zero (Nat.ne_zero_of_lt hfuel)
    rw [loop_succ fuel (step_of_executing hs), ih (Nat.lt_of_succ_lt_succ hfuel)]

theorem instrCount_succ_of_executing (fuel : Nat) (hs : s.Executing) :
    instrCount (fuel + 1) s = instrCount fuel (afterInstr (instrAt s) s) + 1 := by
  rw [instrCount, if_pos hs, turn_executing hs, exec_eq]

theorem instrCount_of_budget_spent (fuel : Nat) (hc : s.cyc ≤ 0) : instrCount fuel s = 0 := by
  cases fuel with
  | zero => rfl
  | succ fuel => rw [instrCount, if_neg fun hs => hs.2.not_ge hc]

/-- The loop counts the run's instructions up to the number of its turns. -/
theorem RunsTo.instrCount_eq (h : RunsTo s k t) (fuel : Nat) : instrCount fuel s = min fuel k := by
  induction h generalizing fuel with
  | spent _ hc => rw [instrCount_of_budget_spent fuel hc, Nat.min_zero]
  | executing hs _ ih =>
    cases fuel with
    | zero => rw [instrCount, Nat.zero_min]
    | succ fuel => rw [instrCount_succ_of_executing fuel hs, ih fuel, Nat.add_min_add_right]

/-! ### Cycles over a run -/

theorem afterInstr_cyc_bounds (i : Instr) (s : State) :
    1 ≤ s.cyc - (afterInstr i s).cyc ∧ s.cyc - (afterInstr i s).cyc ≤ 4 := by
  have hlo := i.one_le_cycles
  have hhi := i.cycles_le_four
  rw [afterInstr_cyc]
  omega

theorem afterInstr_phase (i : Instr) (s : State) : (afterInstr i s).phase = s.phase :=
  (exec_sameConstants (exec_eq i s)).phase.symm

/-- Each instruction lowers `CYC`, so every run returns (R94). -/
theorem exists_runsTo (hp : s.phase = .running) : ∃ k t, RunsTo s k t := by
  induction hn : s.cyc.toNat using Nat.strong_induction_on generalizing s with
  | _ n ih =>
    by_cases hc : s.cyc ≤ 0
    · exact ⟨0, _, .spent hp hc⟩
    · have hs : s.Executing := ⟨hp, not_le.mp hc⟩
      have hcost := afterInstr_cyc_bounds (instrAt s) s
      obtain ⟨k, t, h⟩ := ih (afterInstr (instrAt s) s).cyc.toNat (by omega) ((afterInstr_phase _ s).trans hp) rfl
      exact ⟨k + 1, t, .executing hs h⟩

theorem RunsTo.phase_eq (h : RunsTo s k t) : t.phase = .idle := by
  induction h with
  | spent _ _ => rfl
  | executing _ _ ih => exact ih

/-- The budget is used up, and the last instruction overshoots it by 3 at most (R94). -/
theorem RunsTo.cyc_bounds (h : RunsTo s k t) : t.cyc ≤ 0 ∧ (-3 ≤ s.cyc → -3 ≤ t.cyc) := by
  induction h with
  | spent _ hc => exact ⟨hc, id⟩
  | @executing s _ _ hs _ ih =>
    have hcost := afterInstr_cyc_bounds (instrAt s) s
    have hpos := hs.2
    exact ⟨ih.1, fun _ => ih.2 (by omega)⟩

/-- Each instruction costs 1 to 4 (R93). -/
theorem RunsTo.count_bounds (h : RunsTo s k t) : k ≤ s.cyc.toNat ∧ s.cyc ≤ 4 * k := by
  induction h with
  | spent _ hc => exact ⟨Nat.zero_le _, hc⟩
  | @executing s _ _ hs _ ih =>
    have hcost := afterInstr_cyc_bounds (instrAt s) s
    have hpos := hs.2
    omega

/-! ### `run` -/

theorem callRun_of_idle (budget : Int) (h : s.phase = .idle) : callRun budget s = .next (enterRun budget s) := by
  simp [callRun, whileIdle, h]

theorem RunsTo.run_eq (h : RunsTo (enterRun budget s) k t) (hs : s.phase = .idle) : run budget s = .next t := by
  rw [run, callRun_of_idle budget hs]
  exact h.loop_eq (Nat.lt_succ_of_le h.count_bounds.1)

theorem RunsTo.runCount_eq (h : RunsTo (enterRun budget s) k t) : runCount budget s = k := by
  rw [runCount, h.instrCount_eq]
  exact Nat.min_eq_right h.count_bounds.1

/-- Settles O49: the run returns where `RunsTo` does, within the bounds on `CYC`. -/
theorem runReturnsWithBoundedOvershoot : Obligations.RunReturnsWithBoundedOvershoot := by
  intro budget s hs
  obtain ⟨k, t, h⟩ := exists_runsTo (enterRun_phase s budget)
  obtain ⟨hend, hover⟩ := h.cyc_bounds
  exact ⟨t, h.run_eq hs, h.phase_eq, hend, fun hb => hover (le_trans (by decide) hb)⟩

/-- Settles O50: the entry is `callRun_of_idle`, and without a budget the run ends at its first turn. -/
theorem runWithoutBudgetExecutesNothing : Obligations.RunWithoutBudgetExecutesNothing := by
  refine fun budget s hs => ⟨callRun_of_idle budget hs, fun hb => ?_⟩
  have h : RunsTo (enterRun budget s) 0 { s with cyc := budget, phase := .idle } := .spent rfl hb
  rw [h.run_eq hs, ← hs]

/-- Settles O51: the loop counts `min fuel k` instructions, and `k` is bounded by the budget from both sides. -/
theorem runExecutesBetweenQuarterBudgetAndBudget : Obligations.RunExecutesBetweenQuarterBudgetAndBudget := by
  refine ⟨fun s t hs h => ?_, fun n s hs _ => ?_⟩
  · cases (step_of_executing hs).symm.trans h
    exact afterInstr_cyc_bounds _ s
  · obtain ⟨k, t, h⟩ := exists_runsTo (enterRun_phase s n)
    obtain ⟨hle, hge⟩ := h.count_bounds
    rw [enterRun_cyc] at hle hge
    rw [h.runCount_eq]
    refine ⟨by omega, fun fuel => ?_, t, h.run_eq hs, h.phase_eq⟩
    rw [h.instrCount_eq]
    omega

/-- Settles O52: a budget of 1 admits one instruction, and its cost of at least 1 uses the budget up. -/
theorem runOfOneExecutesOneInstruction : Obligations.RunOfOneExecutesOneInstruction := by
  intro s hs
  have hexec : (enterRun 1 s).Executing := ⟨rfl, Int.one_pos⟩
  have hcost := afterInstr_cyc_bounds (instrAt s) (enterRun 1 s)
  rw [enterRun_cyc] at hcost
  have hspent : (afterInstr (instrAt s) (enterRun 1 s)).cyc ≤ 0 := by omega
  have hrun : RunsTo (enterRun 1 s) 1 { afterInstr (instrAt s) (enterRun 1 s) with phase := .idle } :=
    .executing hexec (.spent (afterInstr_phase _ _) hspent)
  exact ⟨_, exec_eq _ _, hrun.run_eq hs, by omega, hspent, hrun.runCount_eq⟩

/-! ### A larger budget -/

theorem popWord_with_cyc (s : State) (c : Int) : (popWord { s with cyc := c }).1 = (popWord s).1 ∧
    (popWord { s with cyc := c }).2.sp = (popWord s).2.sp ∧ (popWord { s with cyc := c }).2.trace = (popWord s).2.trace := by
  cases hv : s.rtsVariant with
  | faithful => simp [popWord, hv, popWordFaithful_eq, byteAt]
  | corrected => simp [popWord, hv, popWordCorrected_eq, byteAt]

/-- No instruction reads `CYC` (spec/60_exceptions.md R128). -/
theorem afterInstr_with_cyc (i : Instr) (s : State) (m : Int) : afterInstr i { s with cyc := s.cyc + m } =
    { afterInstr i s with cyc := (afterInstr i s).cyc + m } := by
  have hcyc (n : Int) : s.cyc + m - n = s.cyc - n + m := by omega
  cases i with
  | jsr _ => simp [afterInstr, byteAt, hcyc]
  | rts =>
    have hop : consumeOpcode { s with cyc := s.cyc + m } = { consumeOpcode s with cyc := s.cyc + m - 1 } := rfl
    simp [afterInstr, hop, popWord_with_cyc, hcyc]
  | ldaZp _ => simp [afterInstr, byteAt, updateZN_eq, hcyc]
  | ldaImm _ => simp [afterInstr, byteAt, updateZN_eq, hcyc]
  | unk _ => simp [afterInstr, byteAt, hcyc]

/-- A run that ends with `CYC` at 0, given `m` more at the start, does the same and goes on as a run with budget `m`. -/
theorem RunsTo.add_budget (h : RunsTo s k t) (ht : t.cyc = 0) {m : Nat} (hm : RunsTo (enterRun m t) j u) :
    RunsTo { s with cyc := s.cyc + m } (j + k) u := by
  induction h with
  | @spent s hp hc =>
    have hs : { s with cyc := s.cyc + m } = enterRun m { s with phase := .idle } := by
      simp [enterRun, hp, show s.cyc = 0 from ht]
    rwa [hs]
  | @executing s t k hs _ ih =>
    refine .executing ⟨hs.1, Int.add_pos_of_pos_of_nonneg hs.2 (Int.natCast_nonneg m)⟩ ?_
    have hi : instrAt { s with cyc := s.cyc + m } = instrAt s := rfl
    rw [hi, afterInstr_with_cyc]
    exact ih ht hm

/-- Settles O53: the run with the sum is the first run, given `m` more, and then the second. -/
theorem runsSplitExactlyAtZero : Obligations.RunsSplitExactlyAtZero := by
  intro n m s t hs hrun ht
  obtain ⟨k, t', h⟩ := exists_runsTo (enterRun_phase s n)
  cases (h.run_eq hs).symm.trans hrun
  obtain ⟨j, u, hm⟩ := exists_runsTo (enterRun_phase t m)
  have hsum : RunsTo (enterRun (n + m : Nat) s) (j + k) u := by
    rw [Nat.cast_add]
    exact h.add_budget ht hm
  rw [hm.run_eq h.phase_eq, hsum.run_eq hs]

end Sys2Proof.Machine

/-! SUPPORT. The load-accumulator instructions (spec/41_load_accumulator.md R100 to R102): the flag update in closed form, which
gives both loads' `P`. -/

namespace Sys2Proof.Machine

/-! ### The flag update -/

/-- The mask by which `UpdateZN` sets N is bit 7 of the value itself. -/
theorem ite_getLsbD_seven_eq_and (v : Byte) : (if v.getLsbD 7 then Flag.n.mask else 0x00) = v &&& 0x80 :=
  (BitVec.and_twoPow v 7).symm

/-- Bit 7 is set from 0x80 up. -/
theorem and_0x80_eq_ite (v : Byte) : v &&& 0x80 = if 0x80 ≤ v.toNat then 0x80 else 0x00 := by
  have hbit : v.getLsbD 7 = decide (0x80 ≤ v.toNat) := BitVec.msb_eq_decide v
  rw [← ite_getLsbD_seven_eq_and, hbit]
  simp only [decide_eq_true_eq, Flag.mask]

theorem updateZN_p (v : Byte) (s : State) :
    (updateZN v s).p = s.p ||| (if v = 0x00 then 0x02 else 0x00) ||| (v &&& 0x80) := by
  rw [updateZN, setFlagIf_p, setFlagIf_p, ite_getLsbD_seven_eq_and]
  simp only [beq_iff_eq, Flag.mask]

theorem updateZN_eq_with_p (v : Byte) (s : State) : updateZN v s = { s with p := (updateZN v s).p } := by
  rw [updateZN_eq]

/-- Settles O18: the closed form is `updateZN_p`; in each range of the table its two masks are known. -/
theorem updateZnSetsAndNeverClears : Obligations.UpdateZnSetsAndNeverClears := by
  intro v s
  have hclosed : updateZN v s = { s with p := s.p ||| (if v = 0x00 then 0x02 else 0x00) ||| (v &&& 0x80) } := by
    rw [updateZN_eq_with_p, updateZN_p]
  refine ⟨hclosed, fun hzero => ?_, fun ⟨hpos, hlow⟩ => ?_, fun hhigh => ?_⟩
  · have hn : v &&& 0x80 = 0x00 := by rw [hzero]; rfl
    rw [hclosed, if_pos hzero, hn]
    simp
  · have hz : v ≠ 0x00 := by rintro rfl; contradiction
    have hn : v &&& 0x80 = 0x00 := by rw [and_0x80_eq_ite, if_neg (by omega)]
    rw [hclosed, if_neg hz, hn]
    simp
  · have hz : v ≠ 0x00 := by rintro rfl; contradiction
    have hn : v &&& 0x80 = 0x80 := by rw [and_0x80_eq_ite, if_pos hhigh]
    rw [hclosed, if_neg hz, hn]
    simp

/-! ### The two loads -/

/-- Settles O19: the encoding is read back by the round trip; the state after it is `exec_ldaImm_eq` with `P` in closed form. -/
theorem ldaImmediateLoadsItsOperand : Obligations.LdaImmediateLoadsItsOperand := by
  intro imm s
  refine ⟨rfl, decodeOfEncodeGivesTheInstruction (.ldaImm imm) [] rfl, ?_⟩
  rw [exec_ldaImm_eq, afterInstr, updateZN_p]

/-- Settles O20: the encoding is read back by the round trip; the state after it is `exec_ldaZp_eq` with `P` in closed form. -/
theorem ldaZeroPageLoadsTheAddressedByte : Obligations.LdaZeroPageLoadsTheAddressedByte := by
  intro z s
  refine ⟨rfl, decodeOfEncodeGivesTheInstruction (.ldaZp z) [] rfl, ?_⟩
  rw [exec_ldaZp_eq, afterInstr, updateZN_p]

end Sys2Proof.Machine

/-! SUPPORT. The subroutine instructions (spec/42_subroutine.md R110 to R113): where `JSR` leaves the bytes it pushed, and the
word that each variant of `RTS` pops. -/

namespace Sys2Proof.Machine

variable {s : State}

/-! ### What `JSR` leaves -/

@[simp] theorem afterInstr_jsr_sp (target : Addr) (s : State) : (afterInstr (.jsr target) s).sp = s.sp - 2 := rfl

/-- `JSR` leaves each byte as the push of its last byte's address does (spec/42_subroutine.md R110). -/
theorem byteAt_afterInstr_jsr (target a : Addr) (s : State) :
    byteAt a (afterInstr (.jsr target) s) = byteAt a (pushWord (s.pc + 2) s) := by
  rw [byteAt, afterInstr_jsr_mem, byteAt]

/-- The free byte below a pushed word is not one of the word's two, across the wrap of the stack page too. -/
theorem byteAt_pushWord_below (v : Addr) (s : State) :
    byteAt (stackAddr (s.sp - 2)) (pushWord v s) = byteAt (stackAddr (s.sp - 2)) s := by
  have hhigh : s.sp - 2 ≠ s.sp := by bv_omega
  have hlow : s.sp - 2 ≠ s.sp - 1 := by bv_omega
  exact byteAt_pushWord_of_ne v (mt stackAddr_inj hhigh) (mt stackAddr_inj hlow)

/-! ### What `RTS` pops -/

theorem popWord_val_of_faithful (hv : s.rtsVariant = .faithful) :
    (popWord s).1 = wordOf (byteAt (stackAddr s.sp) s) (byteAt (stackAddr s.sp) s) := by
  rw [popWord_of_faithful s hv, popWordFaithful_eq]

theorem popWord_val_of_corrected (hv : s.rtsVariant = .corrected) :
    (popWord s).1 = wordOf (byteAt (stackAddr (s.sp + 2)) s) (byteAt (stackAddr (s.sp + 1)) s) := by
  rw [popWord_of_corrected s hv, popWordCorrected_eq]

/-- A faithful `RTS` reads its opcode and then one stack byte twice. -/
theorem popWord_consumeOpcode_trace_of_faithful (hv : s.rtsVariant = .faithful) :
    (popWord (consumeOpcode s)).2.trace = s.trace ++ [.read s.pc (byteAt s.pc s),
      .read (stackAddr s.sp) (byteAt (stackAddr s.sp) s), .read (stackAddr s.sp) (byteAt (stackAddr s.sp) s)] := by
  rw [popWord_of_faithful (consumeOpcode s) hv, popWordFaithful_eq]
  simp [consumeOpcode, fetchByte_eq, byteAt]

/-- A corrected `RTS` reads its opcode and then the two stack bytes above `SP`, upwards. -/
theorem popWord_consumeOpcode_trace_of_corrected (hv : s.rtsVariant = .corrected) :
    (popWord (consumeOpcode s)).2.trace = s.trace ++ [.read s.pc (byteAt s.pc s),
      .read (stackAddr (s.sp + 1)) (byteAt (stackAddr (s.sp + 1)) s),
      .read (stackAddr (s.sp + 2)) (byteAt (stackAddr (s.sp + 2)) s)] := by
  rw [popWord_of_corrected (consumeOpcode s) hv, popWordCorrected_eq]
  simp [consumeOpcode, fetchByte_eq, byteAt]

theorem wordOf_toNat (hi lo : Byte) : (wordOf hi lo).toNat = hi.toNat * 0x0100 + lo.toNat := by
  rw [wordOf, BitVec.toNat_append, ← Nat.shiftLeft_add_eq_or_of_lt lo.isLt, Nat.shiftLeft_eq]

/-- The word of one byte twice is the byte times 0x0101 (spec/42_subroutine.md R111). -/
theorem wordOf_self_add_one_toNat (b : Byte) : (wordOf b b + 1).toNat = (b.toNat * 0x0101 + 1) % 65536 := by
  have hword : b.toNat * 0x0100 + b.toNat = b.toNat * 0x0101 := by omega
  rw [BitVec.toNat_add, wordOf_toNat, hword]
  rfl

/-! ### The word that `RTS` pops after a `JSR` -/

/-- The corrected `RTS` pops the word that the `JSR` before it pushed (spec/42_subroutine.md R112). -/
theorem popWord_afterInstr_jsr_of_corrected (hv : s.rtsVariant = .corrected) (target : Addr) :
    (popWord (afterInstr (.jsr target) s)).1 = s.pc + 2 := by
  have hsp : s.sp - 2 + 2 = s.sp := by bv_omega
  have hsp' : s.sp - 2 + 1 = s.sp - 1 := by bv_omega
  rw [popWord_val_of_corrected (s := afterInstr (.jsr target) s) hv, afterInstr_jsr_sp, hsp, hsp',
    byteAt_afterInstr_jsr, byteAt_afterInstr_jsr, byteAt_pushWord_high, byteAt_pushWord_low, wordOf_hiByte_loByte]

/-- The faithful `RTS` pops the free byte below the word that the `JSR` before it pushed (spec/42_subroutine.md R113). -/
theorem popWord_afterInstr_jsr_of_faithful (hv : s.rtsVariant = .faithful) (target : Addr) :
    (popWord (afterInstr (.jsr target) s)).1 =
      wordOf (byteAt (stackAddr (s.sp - 2)) s) (byteAt (stackAddr (s.sp - 2)) s) := by
  rw [popWord_val_of_faithful (s := afterInstr (.jsr target) s) hv, afterInstr_jsr_sp, byteAt_afterInstr_jsr,
    byteAt_pushWord_below]

/-! ### The statements -/

/-- Settles O21: the encoding is read back by the round trip, `exec_jsr_eq` is the state after it, and the pushed bytes are the
push's. -/
theorem jsrPushesReturnAddressAndJumps : Obligations.JsrPushesReturnAddressAndJumps := by
  intro target s
  refine ⟨rfl, decodeOfEncodeGivesTheInstruction (.jsr target) [] rfl, exec_jsr_eq target s, fun t h => ?_⟩
  obtain rfl := exec_next_iff.mp h
  rw [byteAt_afterInstr_jsr, byteAt_afterInstr_jsr]
  exact ⟨byteAt_pushWord_high _ s, byteAt_pushWord_low _ s⟩

/-- Settles O22: `exec_rts_eq` with the faithful pop in closed form, whose word is a byte twice. -/
theorem faithfulRtsJumpsThroughOneStackByte : Obligations.FaithfulRtsJumpsThroughOneStackByte := by
  refine ⟨rfl, rfl, fun s hv => ⟨?_, fun t h => ?_⟩⟩
  · rw [exec_rts_eq, afterInstr, popWord_val_of_faithful hv, popWord_sp_of_faithful hv,
      popWord_consumeOpcode_trace_of_faithful hv]
  · rw [exec_next_iff.mp h, afterInstr, popWord_val_of_faithful hv]
    exact wordOf_self_add_one_toNat _

/-- Settles O23: `exec_rts_eq` with the corrected pop in closed form; after a `JSR` it pops the pushed word and frees its two
bytes. -/
theorem correctedRtsInvertsThePush : Obligations.CorrectedRtsInvertsThePush := by
  refine fun s hv => ⟨?_, fun target => ⟨_, _, exec_eq _ _, exec_eq _ _, ?_, ?_⟩⟩
  · rw [exec_rts_eq, afterInstr, popWord_val_of_corrected hv, popWord_sp_of_corrected hv,
      popWord_consumeOpcode_trace_of_corrected hv]
  · have hsp : s.sp - 2 + 2 = s.sp := by bv_omega
    exact (popWord_sp_of_corrected (s := afterInstr (.jsr target) s) hv).trans hsp
  · have hpc : s.pc + 2 + 1 = s.pc + 3 := by bv_omega
    exact (congrArg (· + 1) (popWord_afterInstr_jsr_of_corrected hv target)).trans hpc

/-- Settles O24: the faithful pop keeps the `SP` that the `JSR` left, and reads the byte there, which the push did not write. -/
theorem faithfulRtsAfterJsrDoesNotReturn : Obligations.FaithfulRtsAfterJsrDoesNotReturn := by
  refine fun target s hv => ⟨_, _, exec_eq _ _, exec_eq _ _, ?_, ?_⟩
  · exact popWord_sp_of_faithful (s := afterInstr (.jsr target) s) hv
  · exact congrArg (· + 1) (popWord_afterInstr_jsr_of_faithful hv target)

end Sys2Proof.Machine

/-! SUPPORT. That the machine has no exception: what completes, what is reported, and what no instruction reads
(spec/60_exceptions.md R120 to R131). -/

namespace Sys2Proof.Machine

/-- Settles O34: the state after each instruction carries its events. -/
theorem onlyUnknownOpcodesAreReported : Obligations.OnlyUnknownOpcodesAreReported := by
  intro i s t h
  obtain rfl := exec_next_iff.mp h
  cases i with
  | unk op => rfl
  | jsr _ | rts | ldaZp _ | ldaImm _ => exact (List.append_nil s.diag).symm

/-- Settles O35: the other count is the first one with `c - s.cyc` added, which the instruction passes on to the state after it. -/
theorem noInstructionReadsTheCycleCounter : Obligations.NoInstructionReadsTheCycleCounter := by
  intro i s t c h
  obtain rfl := exec_next_iff.mp h
  have hbefore : s.cyc + (c - s.cyc) = c := by omega
  have hafter : (afterInstr i s).cyc + (c - s.cyc) = c - (s.cyc - (afterInstr i s).cyc) := by omega
  have hshift := afterInstr_with_cyc i s (c - s.cyc)
  rw [hbefore, hafter] at hshift
  rw [exec_eq, hshift]

/-- Settles O26: `afterInstr` is the state it answers. -/
theorem everyInstructionCompletes : Obligations.EveryInstructionCompletes :=
  fun i s => ⟨afterInstr i s, exec_eq i s⟩

/-- Settles O41: an idle core, a run whose budget is spent, and an instruction, each by its law of the step. -/
theorem stepAlwaysAnswersAfterReset : Obligations.StepAlwaysAnswersAfterReset := by
  intro s hs
  cases hp : s.phase with
  | beforeReset => exact absurd hp hs
  | idle => exact ⟨s, step_of_idle hp⟩
  | running =>
    by_cases hc : 0 < s.cyc
    · exact ⟨_, step_of_executing ⟨hp, hc⟩⟩
    · exact ⟨_, step_of_budget_spent hp (not_lt.mp hc)⟩

end Sys2Proof.Machine

/-! SUPPORT. A budget split over two runs (spec/70_reset_and_hazards.md R154). Two runs are compared by the instruction that both
begin with: no instruction reads `CYC`, so a run given `m` more executes the same ones until the budgets tell them apart. -/

namespace Sys2Proof.Machine

variable {s t u v : State} {j k l : Nat} {m : Int}

/-- A run given `m` more executes nothing, or begins with the instruction of the run without it and goes on with `m` more. -/
theorem RunsTo.add_budget_cases (h : RunsTo { s with cyc := s.cyc + m } l v) :
    l = 0 ∨ ∃ l', l = l' + 1 ∧
      RunsTo { afterInstr (instrAt s) s with cyc := (afterInstr (instrAt s) s).cyc + m } l' v := by
  cases h with
  | spent _ _ => exact .inl rfl
  | executing _ hrest =>
    have hi : instrAt { s with cyc := s.cyc + m } = instrAt s := rfl
    rw [hi, afterInstr_with_cyc] at hrest
    exact .inr ⟨_, rfl, hrest⟩

/-- A smaller budget executes no more instructions. -/
theorem RunsTo.count_le_of_budget_le (h : RunsTo s k t) (hm : m ≤ 0) (hless : RunsTo { s with cyc := s.cyc + m } l v) :
    l ≤ k := by
  induction h generalizing l with
  | @spent s _ hc =>
    have hspent : s.cyc + m ≤ 0 := Int.add_nonpos hc hm
    exact hless.count_bounds.1.trans (Int.toNat_of_nonpos hspent).le
  | executing _ _ ih =>
    rcases hless.add_budget_cases with rfl | ⟨l', rfl, hrest⟩
    · exact Nat.zero_le _
    · exact Nat.succ_le_succ (ih hrest)

/-- The run given `m` more executes at most what the run without it and then a run with budget `m` do: the second starts from
`m` itself, not from `m` less the overshoot of the first. -/
theorem RunsTo.count_add_budget_le (h : RunsTo s k t) (hm : RunsTo (enterRun m t) j u)
    (hsum : RunsTo { s with cyc := s.cyc + m } l v) : l ≤ k + j := by
  induction h generalizing l with
  | @spent s hp hc =>
    have hstart : { s with cyc := s.cyc + m } =
        { enterRun m { s with phase := .idle } with cyc := (enterRun m { s with phase := .idle }).cyc + s.cyc } := by
      simp [enterRun, hp, add_comm]
    rw [hstart] at hsum
    exact (hm.count_le_of_budget_le hc hsum).trans (Nat.le_add_left _ _)
  | executing _ _ ih =>
    rcases hsum.add_budget_cases with rfl | ⟨l', rfl, hrest⟩
    · exact Nat.zero_le _
    · have := ih hm hrest
      omega

/-- Settles O54: the run with the sum is the first run given `m` more, and `RunsTo.count_add_budget_le` bounds its count. -/
theorem splitRunsExecuteAtLeastAsMany : Obligations.SplitRunsExecuteAtLeastAsMany := by
  intro n m s t hs _ _ hrun
  obtain ⟨k, t', h⟩ := exists_runsTo (enterRun_phase s n)
  cases (h.run_eq hs).symm.trans hrun
  obtain ⟨j, u, hm⟩ := exists_runsTo (enterRun_phase t m)
  obtain ⟨l, v, hsum⟩ := exists_runsTo (enterRun_phase s (n + m : Nat))
  rw [hsum.runCount_eq, h.runCount_eq, hm.runCount_eq]
  rw [Nat.cast_add] at hsum
  exact h.count_add_budget_le hm hsum

end Sys2Proof.Machine

/-! SUPPORT. Reset, and what the host reads and writes while the core is idle (spec/70_reset_and_hazards.md R140 to R145). -/

namespace Sys2Proof.Machine

variable {s t : State}

/-- Settles O44: `State.Inv.hostMove`; what a reset leaves is `resetState`, which meets the invariant. -/
theorem hostMovesKeepTheInvariant : Obligations.HostMovesKeepTheInvariant := by
  refine ⟨fun m s t => State.Inv.hostMove, fun v s t h => ?_⟩
  rw [resetToVector_next h]
  exact resetState_inv v s

/-- A reset writes values that do not depend on what it overwrites, so the second one changes nothing (R141). -/
theorem resetState_resetState (v : Addr) (s : State) : resetState v (resetState v s) = resetState v s := rfl

theorem resetToVector_again {v : Addr} (h : resetToVector v s = .next t) : resetToVector v t = .next t := by
  obtain rfl := resetToVector_next h
  have hidle : (resetState v s).phase ≠ .running := by simp
  rw [resetToVector_of_not_running v hidle, resetState_resetState]

/-- Settles O57: `reset()` is the reset to one vector. -/
theorem resetIsIdempotent : Obligations.ResetIsIdempotent :=
  ⟨fun _ _ => resetToVector_again, fun _ _ _ => resetToVector_again⟩

theorem whileIdle_of_idle {α : Type} (r : α) (h : s.phase = .idle) : whileIdle s r = .next r := by
  simp [whileIdle, h]

/-- Settles O59: both transactions go through while idle, and the host's write leaves each byte as the core's does. -/
theorem hostReadsAndWritesMemoryWhileIdle : Obligations.HostReadsAndWritesMemoryWhileIdle :=
  fun s hs => ⟨fun _ => whileIdle_of_idle _ hs, fun a v => ⟨_, whileIdle_of_idle _ hs, rfl, fun b => byteAt_memWrite a b v s⟩⟩

/-- Settles O60: the observation goes through while idle. -/
theorem hostObservesTheRegistersWhileIdle : Obligations.HostObservesTheRegistersWhileIdle :=
  fun _ hs => whileIdle_of_idle _ hs

end Sys2Proof.Machine
